-- ==== Sys2Proof/Word.lean ====
section
/-! DEFINITION. The plain value types of the predictor unit: its command word, the address operand, a direction
and a 2-bit saturating counter (00_scope R7, R8; 10_state R34; 30_encoding R80). -/

namespace Sys2Proof

/-- `cmd[35:0]`, the one command length (R80). -/
abbrev CmdWord := BitVec 36

/-- The unsigned 32-bit branch address `pc`, an operand and never a program counter (R22). -/
abbrev Addr := BitVec 32

/-- A direction of a conditional branch (R8). -/
inductive Direction where
  | notTaken
  | taken
  deriving DecidableEq, Repr, Inhabited

/-- The four ordinal states of a saturating counter, in the order 0, 1, 2, 3 (R34). -/
inductive Counter where
  | strongNotTaken
  | weakNotTaken
  | weakTaken
  | strongTaken
  deriving DecidableEq, Repr, Inhabited

end Sys2Proof
end

