-- ==== Sys2Proof/Syntax.lean ====
section
/-! DEFINITION. The modes, the three commands a word can carry, and the eleven rows of the opcode table
(10_state R23; 30_encoding R80, R91). A word alone gives a `Command`; the MODE register then selects the row. -/

namespace Sys2Proof

/-- The values of the `MODE` register (R23). `none` is "no recognised strategy is active". -/
inductive Mode where
  | none
  | static
  | gshare
  | tournament
  | custom
  deriving DecidableEq, Repr, Inhabited

/-- What a command word carries (R80, R82, R83, R84): the fields as they stand in the word. -/
inductive Command where
  | init (variant : BitVec 8) (gbits lbits pbits : BitVec 6)
  | predict (pc : Addr)
  | train (pc : Addr) (outcome : Direction)
  deriving DecidableEq, Repr

/-- The rows of `opcode_table.json`: INIT, and PREDICT and TRAIN in each of the five modes (R91). -/
inductive Instr where
  | init (variant : BitVec 8) (gbits lbits pbits : BitVec 6)
  | predictNone (pc : Addr)
  | predictStatic (pc : Addr)
  | predictGshare (pc : Addr)
  | predictTournament (pc : Addr)
  | predictCustom (pc : Addr)
  | trainNone (pc : Addr) (outcome : Direction)
  | trainStatic (pc : Addr) (outcome : Direction)
  | trainGshare (pc : Addr) (outcome : Direction)
  | trainTournament (pc : Addr) (outcome : Direction)
  | trainCustom (pc : Addr) (outcome : Direction)
  deriving DecidableEq, Repr

/-- The command whose word an instruction is: rows of one command share their words (R91). -/
def Instr.command : Instr → Command
  | .init v g l p => .init v g l p
  | .predictNone pc => .predict pc
  | .predictStatic pc => .predict pc
  | .predictGshare pc => .predict pc
  | .predictTournament pc => .predict pc
  | .predictCustom pc => .predict pc
  | .trainNone pc o => .train pc o
  | .trainStatic pc o => .train pc o
  | .trainGshare pc o => .train pc o
  | .trainTournament pc o => .train pc o
  | .trainCustom pc o => .train pc o

/-- The table's "mode" field: the MODE value that selects the row; `none` of the option is "any" (INIT). -/
def Instr.rowMode : Instr → Option Mode
  | .init _ _ _ _ => Option.none
  | .predictNone _ => some .none
  | .predictStatic _ => some .static
  | .predictGshare _ => some .gshare
  | .predictTournament _ => some .tournament
  | .predictCustom _ => some .custom
  | .trainNone _ _ => some .none
  | .trainStatic _ _ => some .static
  | .trainGshare _ _ => some .gshare
  | .trainTournament _ _ => some .tournament
  | .trainCustom _ _ => some .custom

end Sys2Proof
end

