-- ==== Sys2Proof/WellFormed.lean ====
section
/-! DEFINITION. When an instruction is well formed: the MODE register must select its row (30_encoding R91,
44_dispatch R190). The operand fields need no check, since each has exactly the width of its type (R82 to R85). -/

namespace Sys2Proof

/-- In mode `m` the row of `i` is the one R91 selects. -/
def wellFormedIn (m : Mode) (i : Instr) : Bool :=
  match i.rowMode with
  | Option.none => true
  | some r => r == m

end Sys2Proof
end

