-- ==== Sys2Proof/Decode.lean ====
section
/-! DEFINITION. The decoder and the encoder of the 36-bit command word (30_encoding R80 to R88, R91).
Decoding a word is total: INIT, PREDICT, TRAIN, or illegal (`none`). -/

namespace Sys2Proof

/-- `dir(b)`: 1 is Taken (R8). -/
def dirOf (b : BitVec 1) : Direction :=
  if b = 1#1 then .taken else .notTaken

/-- `bit(d)`, the inverse of `dirOf` (R8). -/
def bitOf : Direction → BitVec 1
  | .taken => 1#1
  | .notTaken => 0#1

/-- `cmd[35:34]` (R81). -/
def opField (w : CmdWord) : BitVec 2 := w.extractLsb' 34 2

/-- `cmd[31:0]`, the address of formats P and T (R83, R84, R85). -/
def pcField (w : CmdWord) : Addr := w.extractLsb' 0 32

/-- The reserved bits of the word's format, "must be 0": 33:26 of format I (R82). -/
def reservedInit (w : CmdWord) : BitVec 8 := w.extractLsb' 26 8

/-- Bits 33:32 of format P (R83). -/
def reservedPredict (w : CmdWord) : BitVec 2 := w.extractLsb' 32 2

/-- Bit 33 of format T (R84). -/
def reservedTrain (w : CmdWord) : BitVec 1 := w.extractLsb' 33 1

/-- The command of a word; `none` is an illegal word (R81 to R87). -/
def decodeCommand (w : CmdWord) : Option Command :=
  if opField w = 0b00#2 then
    if reservedInit w = 0#8 then
      some (.init (w.extractLsb' 0 8) (w.extractLsb' 8 6) (w.extractLsb' 14 6) (w.extractLsb' 20 6))
    else Option.none
  else if opField w = 0b01#2 then
    if reservedPredict w = 0#2 then some (.predict (pcField w)) else Option.none
  else if opField w = 0b10#2 then
    if reservedTrain w = 0#1 then some (.train (pcField w) (dirOf (w.extractLsb' 32 1))) else Option.none
  else Option.none

/-- The second step of decoding: MODE selects the row of PREDICT (R91). -/
def predictRow (m : Mode) (pc : Addr) : Instr :=
  match m with
  | .none => .predictNone pc
  | .static => .predictStatic pc
  | .gshare => .predictGshare pc
  | .tournament => .predictTournament pc
  | .custom => .predictCustom pc

/-- The second step of decoding: MODE selects the row of TRAIN (R91). -/
def trainRow (m : Mode) (pc : Addr) (o : Direction) : Instr :=
  match m with
  | .none => .trainNone pc o
  | .static => .trainStatic pc o
  | .gshare => .trainGshare pc o
  | .tournament => .trainTournament pc o
  | .custom => .trainCustom pc o

/-- The row of the opcode table a command is in mode `m` (R91). -/
def selectRow (m : Mode) : Command → Instr
  | .init v g l p => .init v g l p
  | .predict pc => predictRow m pc
  | .train pc o => trainRow m pc o

/-- Both steps: the instruction a word is in mode `m`; `none` is an illegal word (R87, R91). -/
def decode (m : Mode) (w : CmdWord) : Option Instr :=
  (decodeCommand w).map (selectRow m)

/-- The word of a command, written field by field from formats I, P and T (R82, R83, R84). -/
def encodeCommand : Command → CmdWord
  | .init v g l p => 0b00#2 ++ 0#8 ++ p ++ l ++ g ++ v
  | .predict pc => 0b01#2 ++ 0#2 ++ pc
  | .train pc o => 0b10#2 ++ 0#1 ++ bitOf o ++ pc

/-- The word of an instruction: its command's, whatever the row's mode (R91). -/
def encode (i : Instr) : CmdWord := encodeCommand i.command

/-- The 36-bit word of an opcode-table number: of the low `nbits` bits of `w`, those of the port `cmd[35:0]`. -/
def tableWord (nbits w : Nat) : CmdWord := BitVec.ofNat 36 (w % 2 ^ nbits)

/-- The instruction the decoder reads from a table word. The table's number carries no MODE, so this is the row of
the mode the machine is in at reset, NONE (log entry 2). -/
def decodeTableWord (nbits w : Nat) : Option Instr := decode .none (tableWord nbits w)

end Sys2Proof
end

