-- ==== Sys2Proof/Config.lean ====
section
/-! DEFINITION. The build-time parameters of the unit (00_scope R5, R6) and the free values of the model.
The OPEN parameters and the free values are opaque constants without a body: no proof can see a value of one. -/

namespace Sys2Proof

/-- The build parameters of R6, fixed before power-on and changed by no command (70_reset R232). -/
structure BuildParams where
  /-- `PERC_S`, the number of perceptrons. -/
  percS : Nat
  /-- `PERC_H`, the length of the perceptron's history vector. -/
  percH : Nat
  /-- `PERC_K`, the bit width of one weight. -/
  percK : Nat
  /-- `PERC_KMULT`, the multiplier of the address hash. -/
  percKMult : Nat
  /-- `PERC_THETA`, the training threshold. -/
  percTheta : Nat
  /-- `HASH_WRAP`: to how many bits the hash product is truncated, or `none`. -/
  hashWrap : Option Nat
  /-- `CHOOSER_INIT`, the state every chooser counter takes at INIT. -/
  chooserInit : Counter
  /-- `TOURN_GIDX_XOR`: whether the tournament's global index folds in the address. -/
  tournGidxXor : Bool
  /-- `MAXW`, the largest legal width. -/
  maxW : Nat
  deriving DecidableEq, Repr

/-- The constraints of R6's table. -/
abbrev BuildParams.Legal (b : BuildParams) : Prop :=
  1 ≤ b.percS ∧ 1 ≤ b.percK ∧ 1 ≤ b.maxW ∧ b.maxW ≤ 63

/-- `PERC_S - 1`, OPEN (R6, D11): `PERC_S >= 1`. -/
opaque Config.percSPred : Nat
/-- `PERC_H`, OPEN (R6, D11). -/
opaque Config.percH : Nat
/-- `PERC_K - 1`, OPEN (R6, D11): `PERC_K >= 1`. -/
opaque Config.percKPred : Nat
/-- `PERC_KMULT`, OPEN (R6, D11). -/
opaque Config.percKMult : Nat
/-- `PERC_THETA`, OPEN (R6, D11). -/
opaque Config.percTheta : Nat

/-- This machine's build parameters: the OPEN ones opaque, the others at the defaults R6 states. -/
def Config.build : BuildParams where
  percS := Config.percSPred + 1
  percH := Config.percH
  percK := Config.percKPred + 1
  percKMult := Config.percKMult
  percTheta := Config.percTheta
  hashWrap := none
  chooserInit := .weakTaken
  tournGidxXor := true
  maxW := 32

/-- FREE VALUE. The direction the `n`-th free draw gives for `SCR_PRED` when a TRAIN reads it while it holds no
value (93 U3, log entry 8). -/
opaque Config.freeScratchPred : Nat → Direction
/-- FREE VALUE. The bit the `n`-th free draw gives for `SCR_NEED`, in the same case. -/
opaque Config.freeScratchNeed : Nat → Bool

end Sys2Proof
end

