-- ==== Sys2Proof/Machine/State.lean ====
section
/-! DEFINITION. The state of the predictor unit as plain data (10_state R20 to R37; 70_reset R230), what can stop a
step, and the state at power-on. INVENTORY.md '## State' lists every element with its rule. -/

namespace Sys2Proof.Machine

/-- A table (20_memory R60): the (index, value) pairs that differ from what INIT put everywhere, indices rising.
An unlisted index holds the table's initial value (log entry 7). -/
abbrev Table (α : Type) := List (Nat × α)

/-- The three scratch elements of mode CUSTOM (R33), written together by PREDICT. -/
structure Scratch where
  /-- `SCR_OUT`, the last computed output sum. -/
  out : Int
  /-- `SCR_PRED`, the last predicted direction. -/
  pred : Direction
  /-- `SCR_NEED`, the needs-training flag. -/
  need : Bool
  deriving DecidableEq, Repr

/-- What exists in mode GSHARE (R20). -/
structure GshareState where
  /-- `GHR` (R26), below `2^G`. -/
  ghr : Nat
  /-- `GPHT` (R27), initial value WeakNotTaken. -/
  gpht : Table Counter
  deriving DecidableEq, Repr

/-- What exists in mode TOURNAMENT (R20). -/
structure TournamentState where
  /-- `GHR` (R26), below `2^G`. -/
  ghr : Nat
  /-- `GPHT` (R27), initial value WeakNotTaken. -/
  gpht : Table Counter
  /-- `CHT` (R28), initial value `CHOOSER_INIT`. -/
  cht : Table Counter
  /-- `LHT` (R29), histories below `2^L`, initial value 0. -/
  lht : Table Nat
  /-- `LPHT` (R30), initial value WeakNotTaken. -/
  lpht : Table Counter
  deriving DecidableEq, Repr

/-- What exists in mode CUSTOM (R20). -/
structure CustomState where
  /-- `PW` (R31): row `s` is the bias and the history weights of perceptron `s`; initial value a row of zeros. -/
  pw : Table (List Int)
  /-- `PHIST` (R32), below `2^PERC_H`. -/
  phist : Nat
  /-- `SCR_OUT`, `SCR_PRED`, `SCR_NEED` (R33). `none`: they hold no value, no PREDICT since INIT. -/
  scratch : Option Scratch
  deriving DecidableEq, Repr

/-- The active strategy with the state it owns: the tagged variant of R20. The tag is the `MODE` register (R23). -/
inductive Strategy where
  | none
  | static
  | gshare (st : GshareState)
  | tournament (st : TournamentState)
  | custom (st : CustomState)
  deriving DecidableEq, Repr

/-- The `status` field of a response (R86). -/
inductive Status where
  | ok
  | cfgFault
  | illegal
  deriving DecidableEq, Repr

/-- The response word `rsp[2:0]` (R86). -/
structure Response where
  status : Status
  dir : BitVec 1
  deriving DecidableEq, Repr

/-- What the outside presents on the input ports (R92): a command word on `cmd`, or `rst`. -/
inductive Input where
  | command (w : CmdWord)
  | rst
  deriving DecidableEq, Repr

/-- The state of the machine. -/
structure State where
  /-- The build parameters the model takes as an argument (R6); no step writes them (R232). -/
  build : BuildParams
  /-- `CFG_FAULT` (R24), also the output `fault_o` (R92). -/
  cfgFault : Bool
  /-- `CFG_G` (R25). -/
  cfgG : BitVec 6
  /-- `CFG_L` (R25). -/
  cfgL : BitVec 6
  /-- `CFG_P` (R25). -/
  cfgP : BitVec 6
  /-- `MODE` (R23) and the elements of the active strategy (R20). -/
  strategy : Strategy
  /-- The ports `rsp_valid` and `rsp` (R92): the response of the last issued command, if one is present. -/
  rsp : Option Response
  /-- The driver's record of all responses, oldest first (R237). The model's own. -/
  responses : List Response
  /-- What the driver will present, the next first (R237, log entry 1). -/
  inputs : List Input
  /-- How many free draws have been made (log entries 8, 9). The model's own. -/
  draws : Nat
  deriving DecidableEq, Repr

/-- Why a step stops with a fault. There is no constructor, because no step of this hardware stops: every command
completes unconditionally (R10, R237), ConfigFault and IllegalCommand are next states (R214, R217), and a protocol
violation is not detected (R213). Raised by nobody; safe. -/
inductive Fault where
  deriving DecidableEq, Repr

/-- Why an instruction is refused. -/
inductive Refusal where
  /-- An instruction without a meaning yet. Raised by no arm: every row has its meaning. Safe. -/
  | notModelled (mnemonic : String)
  /-- `exec` was applied by hand to a PREDICT or TRAIN row that the current MODE does not select (R91, R190): that
  row is not what the command is in this mode. Raised by the meanings of the ten rows; `step` selects the row by MODE
  and never meets it (log entry 12). Safe. -/
  | rowNotSelected (row : Mode)
  deriving DecidableEq, Repr

/-- The power-on state (R230), nothing presented and no response given yet. -/
def State.reset : State where
  build := Config.build
  cfgFault := false
  cfgG := 0#6
  cfgL := 0#6
  cfgP := 0#6
  strategy := .none
  rsp := Option.none
  responses := []
  inputs := []
  draws := 0

end Sys2Proof.Machine
end

