-- ==== Sys2Proof/Machine/Operands.lean ====
section
/-! DEFINITION. The pure functions the commands are made of: counter and history primitives (40 R110 to R116), the
index functions of the three table strategies (41 R140, 42 R150, 43 R170), the perceptron's arithmetic
(43 R171, R172) and the validity of a configuration (44 R196, 60 R211, R216). All arithmetic is on mathematical
integers (R7, R116): nothing wraps. -/

namespace Sys2Proof.Machine

/-- `bit(d)` as an integer (R8). -/
def bit (d : Direction) : Nat := (bitOf d).toNat

/-- `mask(W)` (R110). -/
def mask (w : Nat) : Nat := 2 ^ w - 1

/-- `shift_in(h, b, W)` (R111). -/
def shiftIn (h b w : Nat) : Nat := ((h <<< 1) ||| b) &&& mask w

/-- The number 0..3 of a counter state (R34). -/
def counterValue : Counter → Nat
  | .strongNotTaken => 0
  | .weakNotTaken => 1
  | .weakTaken => 2
  | .strongTaken => 3

/-- The counter state of a number in 0..3 (R34). -/
def counterOfValue : Nat → Counter
  | 0 => .strongNotTaken
  | 1 => .weakNotTaken
  | 2 => .weakTaken
  | _ => .strongTaken

/-- `bump(s, o)` (R113). On natural numbers `s - 1` is the spec's `max(s - 1, 0)`. -/
def bump (s : Counter) (o : Direction) : Counter :=
  match o with
  | .taken => counterOfValue (min (counterValue s + 1) 3)
  | .notTaken => counterOfValue (counterValue s - 1)

/-- `read(s)` (R114). -/
def counterRead (s : Counter) : Direction :=
  if 2 ≤ counterValue s then .taken else .notTaken

/-- `gshare_index(h, pc, G)` (R140). -/
def gshareIndex (h : Nat) (pc : Addr) (g : Nat) : Nat := (h ^^^ pc.toNat) &&& mask g

/-- `gidx` of R150. -/
def globalIndex (b : BuildParams) (ghr : Nat) (pc : Addr) (g : Nat) : Nat :=
  if b.tournGidxXor then gshareIndex ghr pc g else ghr &&& mask g

/-- `cidx` of R150. -/
def chooserIndex (ghr g : Nat) : Nat := ghr &&& mask g

/-- `lidx` of R150. -/
def localIndex (pc : Addr) (p : Nat) : Nat := pc.toNat &&& mask p

/-- `lh` of R150, from the local history `LHT[lidx]`. -/
def localHistoryIndex (h l : Nat) : Nat := h &&& mask l

/-- `perc_hash(pc)` (R170). -/
def percHash (b : BuildParams) (pc : Addr) : Nat :=
  (match b.hashWrap with
    | Option.none => pc.toNat * b.percKMult
    | some n => (pc.toNat * b.percKMult) % 2 ^ n) % b.percS

/-- `WMIN` (R171). -/
def weightMin (k : Nat) : Int := -(2 ^ (k - 1))

/-- `WMAX` (R171). -/
def weightMax (k : Nat) : Int := 2 ^ (k - 1) - 1

/-- `wsat_inc(w)` (R171). -/
def wsatInc (k : Nat) (w : Int) : Int := min (w + 1) (weightMax k)

/-- `wsat_dec(w)` (R171). -/
def wsatDec (k : Nat) (w : Int) : Int := max (w - 1) (weightMin k)

/-- The history part of the MAC sum (R172): the weights paired with history bits `i`, `i+1`, .... -/
def macSum (phist : Nat) : Nat → List Int → Int
  | _, [] => 0
  | i, w :: ws => (if phist.testBit i then w else -w) + macSum phist (i + 1) ws

/-- `perc_out` of a row of `PW` (R172): the bias, then the history weights from history bit 0 on. -/
def percOut (row : List Int) (phist : Nat) : Int :=
  match row with
  | [] => 0
  | bias :: ws => bias + macSum phist 0 ws

/-- The history weights of a trained row (R174): up where the history bit equals the outcome, down elsewhere. -/
def nudgeWeights (k : Nat) (o : Direction) (phist : Nat) : Nat → List Int → List Int
  | _, [] => []
  | i, w :: ws =>
    (if phist.testBit i = (o == .taken) then wsatInc k w else wsatDec k w) :: nudgeWeights k o phist (i + 1) ws

/-- A row of `PW` after its weights are adjusted (R174): the bias by the outcome, then the history weights. -/
def nudgeRow (k : Nat) (o : Direction) (phist : Nat) : List Int → List Int
  | [] => []
  | bias :: ws =>
    (match o with
      | .taken => wsatInc k bias
      | .notTaken => wsatDec k bias) :: nudgeWeights k o phist 0 ws

/-- What INIT puts in every row of `PW` (R31). -/
def zeroRow (h : Nat) : List Int := List.replicate (h + 1) 0

/-- A width legal where it is required: `1 .. MAXW` (R25, R196). -/
def widthOk (b : BuildParams) (w : BitVec 6) : Bool := decide (1 ≤ w.toNat) && decide (w.toNat ≤ b.maxW)

/-- `config_valid(variant, g, l, p)` (R196). -/
def configValid (b : BuildParams) (v : BitVec 8) (g l p : BitVec 6) : Bool :=
  v == 0#8
    || (v == 1#8 && widthOk b g)
    || (v == 2#8 && widthOk b g && widthOk b l && widthOk b p)
    || v == 3#8

/-- The causes of a ConfigFault (R211), the `info` of its `raise`. Nothing records it (R212). -/
inductive FaultCause where
  | unknownVariant
  | zeroWidthG
  | zeroWidthL
  | zeroWidthP
  | widthTooLargeG
  | widthTooLargeL
  | widthTooLargeP
  deriving DecidableEq, Repr

/-- The cause reported, the first in R216's order; `none` where there is none (R211). -/
def faultCause (b : BuildParams) (v : BitVec 8) (g l p : BitVec 6) : Option FaultCause :=
  if 4 ≤ v.toNat then some .unknownVariant
  else if (v = 1#8 ∨ v = 2#8) ∧ g = 0#6 then some .zeroWidthG
  else if v = 2#8 ∧ l = 0#6 then some .zeroWidthL
  else if v = 2#8 ∧ p = 0#6 then some .zeroWidthP
  else if (v = 1#8 ∨ v = 2#8) ∧ b.maxW < g.toNat then some .widthTooLargeG
  else if v = 2#8 ∧ b.maxW < l.toNat then some .widthTooLargeL
  else if v = 2#8 ∧ b.maxW < p.toNat then some .widthTooLargeP
  else Option.none

/-- The state elements a successful INIT creates, at their reset values (R197, R36): every history 0 and no table
entry differing from its initial value. -/
def freshStrategy (v : BitVec 8) : Strategy :=
  if v = 0#8 then .static
  else if v = 1#8 then .gshare { ghr := 0, gpht := [] }
  else if v = 2#8 then .tournament { ghr := 0, gpht := [], cht := [], lht := [], lpht := [] }
  else if v = 3#8 then .custom { pw := [], phist := 0, scratch := Option.none }
  else .none

end Sys2Proof.Machine
end

