-- ==== Sys2Proof/Machine/Flags.lean ====
section
/-! DEFINITION. The 1-bit status elements and the codes software sees: `SCR_NEED` and the reading of the scratch
state (10_state R33, R35; 43 R173, R174), `fault_o` (30 R92), the response word (R86) and the storage code of MODE
(R23). -/

namespace Sys2Proof.Machine

/-- `SCR_NEED` of an output sum: set iff `abs(out) < PERC_THETA` (R173). -/
def needsTrain (b : BuildParams) (out : Int) : Bool := decide (out.natAbs < b.percTheta)

/-- The prediction of an output sum: Taken iff `out >= 0` (R173). -/
def signPrediction (out : Int) : Direction := if 0 ≤ out then .taken else .notTaken

/-- `SCR_PRED` as a TRAIN reads it. Where it holds no value the `n`-th free draw stands for it (93 U3, R33). -/
def scratchPred (n : Nat) : Option Scratch → Direction
  | some sc => sc.pred
  | Option.none => Config.freeScratchPred n

/-- `SCR_NEED` as a TRAIN reads it, in the same way (93 U3, R33). -/
def scratchNeed (n : Nat) : Option Scratch → Bool
  | some sc => sc.need
  | Option.none => Config.freeScratchNeed n

/-- The count of free draws after a TRAIN has read the scratch state. -/
def drawsAfter (n : Nat) : Option Scratch → Nat
  | some _ => n
  | Option.none => n + 1

/-- Whether TRAIN adjusts the weights: the prediction was wrong, or needs-train was set (R174). -/
def mustTrain (pred : Direction) (need : Bool) (o : Direction) : Bool := decide (pred ≠ o) || need

/-- The output port `fault_o` is the value of `CFG_FAULT` (R24, R92). -/
def faultO (s : State) : Bool := s.cfgFault

/-- The `status` codes of R86. -/
def statusCode : Status → BitVec 2
  | .ok => 0b00#2
  | .cfgFault => 0b01#2
  | .illegal => 0b10#2

/-- The response word `rsp[2:0]`: status in bits 2:1, dir in bit 0 (R86). -/
def responseWord (r : Response) : BitVec 3 := statusCode r.status ++ r.dir

/-- The mode of a strategy, the tag that is the MODE register (R20, R23). -/
def modeOf : Strategy → Mode
  | .none => .none
  | .static => .static
  | .gshare _ => .gshare
  | .tournament _ => .tournament
  | .custom _ => .custom

/-- The storage encoding of `MODE` (R23). -/
def modeCode : Mode → BitVec 3
  | .static => 0#3
  | .gshare => 1#3
  | .tournament => 2#3
  | .custom => 3#3
  | .none => 7#3

end Sys2Proof.Machine
end

