-- ==== Sys2Proof/Machine/Ops.lean ====
section
/-! DEFINITION. The named operations over tables and registers: the storage primitives (20_memory R61), the response
(30 R86), latching the widths (10_state R25), leaving and taking a configuration fault (60 R217, R218), an illegal
command (60 R214), power-on reset (70 R230), and the driver's inputs (30 R92). -/

namespace Sys2Proof.Machine

/-- `T[i]` (R61): the listed value, else the table's initial value `d`. -/
def tableRead {α : Type} (d : α) : Table α → Nat → α
  | [], _ => d
  | (j, u) :: t, i => if i = j then u else tableRead d t i

/-- The table without an entry for index `i`. -/
def tableErase {α : Type} (t : Table α) (i : Nat) : Table α := t.filter (fun e => decide (e.1 ≠ i))

/-- The table with `(i, v)` put before the first greater index. -/
def tableInsert {α : Type} (i : Nat) (v : α) : Table α → Table α
  | [] => [(i, v)]
  | (j, u) :: t => if i < j then (i, v) :: (j, u) :: t else (j, u) :: tableInsert i v t

/-- `T[i] <- v` (R61), keeping the canonical form: the initial value is never listed. -/
def tableWrite {α : Type} [DecidableEq α] (d : α) (t : Table α) (i : Nat) (v : α) : Table α :=
  if v = d then tableErase t i else tableInsert i v (tableErase t i)

/-- The canonical form of a table of `size` entries with initial value `d`. -/
abbrev Table.wf {α : Type} (size : Nat) (d : α) (t : Table α) : Prop :=
  t.Pairwise (fun e f => e.1 < f.1) ∧ ∀ e ∈ t, e.1 < size ∧ e.2 ≠ d

/-- `T[i] <- bump(T[i], o)` of a counter table (R113, R142, R154). -/
def tableBump (d : Counter) (t : Table Counter) (i : Nat) (o : Direction) : Table Counter :=
  tableWrite d t i (bump (tableRead d t i) o)

/-- The `MODE` register (R23). -/
def mode (s : State) : Mode := modeOf s.strategy

/-- `respond(status, d)` (R9, R86): the response port, and the driver's record of it (R237). -/
def respond (st : Status) (d : BitVec 1) (s : State) : State :=
  { s with rsp := some ⟨st, d⟩, responses := s.responses ++ [⟨st, d⟩] }

/-- INIT latches the three width fields as given (R25, R195). -/
def latchWidths (g l p : BitVec 6) (s : State) : State :=
  { s with cfgG := g, cfgL := l, cfgP := p }

/-- A successful INIT (R195, R218): the new mode with its elements, `CFG_FAULT` cleared, response OK. The only way
back from a configuration fault. -/
def enterStrategy (st : Strategy) (s : State) : State :=
  respond .ok 0#1 { s with strategy := st, cfgFault := false }

/-- `raise ConfigFault` (R217): MODE is NONE, `CFG_FAULT` is 1, every element of a strategy ceases to exist, the
response is CFG_FAULT. Nothing is saved and control goes nowhere (R212). -/
def takeConfigFault (s : State) : State :=
  respond .cfgFault 0#1 { s with strategy := .none, cfgFault := true }

/-- IllegalCommand (R214): the response ILLEGAL and no other effect. -/
def takeIllegalCommand (s : State) : State := respond .illegal 0#1 s

/-- Power-on reset by `rst` (R230). No response is present after it; what the driver has recorded and will present,
the build parameters and the count of free draws are not the unit's and stay (log entries 3, 4, 9). -/
def powerOn (s : State) : State :=
  { s with
    cfgFault := false, cfgG := 0#6, cfgL := 0#6, cfgP := 0#6, strategy := .none, rsp := Option.none }

/-- The next thing the driver presents, and the state once it is taken (R92, R237). -/
def takeInput (s : State) : Option (Input × State) :=
  match s.inputs with
  | [] => Option.none
  | i :: rest => some (i, { s with inputs := rest })

/-- The driver presents the command word `w` before all else it has to present. -/
def presentCommand (w : CmdWord) (s : State) : State :=
  { s with inputs := .command w :: s.inputs }

/-- A command that leaves every element of the unit as it is and answers OK with direction bit `d`. -/
def answer (d : BitVec 1) (s : State) : State := respond .ok d s

/-- A command that changes the active strategy's elements to `st` and answers OK with direction bit `d`. -/
def answerWith (d : BitVec 1) (st : Strategy) (s : State) : State := respond .ok d { s with strategy := st }

end Sys2Proof.Machine
end

