-- ==== Sys2Proof/Machine/Gshare.lean ====
section
/-! DEFINITION. PREDICT and TRAIN in mode GSHARE (41 R140 to R143). -/

namespace Sys2Proof.Machine

/-- The direction PREDICT answers (R141). -/
def gsharePrediction (g : Nat) (st : GshareState) (pc : Addr) : Direction :=
  counterRead (tableRead .weakNotTaken st.gpht (gshareIndex st.ghr pc g))

/-- The elements after TRAIN (R142): the index is of the history before the shift. -/
def gshareTrained (g : Nat) (st : GshareState) (pc : Addr) (o : Direction) : GshareState where
  ghr := shiftIn st.ghr (bit o) g
  gpht := tableBump .weakNotTaken st.gpht (gshareIndex st.ghr pc g) o

/-- PREDICT in mode GSHARE (R141). -/
def execPredictGshare (pc : Addr) (s : State) : Host.Outcome State Fault Refusal :=
  match s.strategy with
  | .gshare st => .next (answer (bitOf (gsharePrediction s.cfgG.toNat st pc)) s)
  | _ => .refused (.rowNotSelected .gshare)

/-- TRAIN in mode GSHARE (R142). -/
def execTrainGshare (pc : Addr) (o : Direction) (s : State) : Host.Outcome State Fault Refusal :=
  match s.strategy with
  | .gshare st => .next (answerWith 0#1 (.gshare (gshareTrained s.cfgG.toNat st pc o)) s)
  | _ => .refused (.rowNotSelected .gshare)

end Sys2Proof.Machine
end

