-- ==== Sys2Proof/Machine/Init.lean ====
section
/-! DEFINITION. The meaning of INIT (44 R195 to R198, 60 R217). -/

namespace Sys2Proof.Machine

/-- INIT (R195), the same in every mode: the widths are latched whether or not it faults, then either the whole new
mode is built or the configuration fault is taken. -/
def execInit (v : BitVec 8) (g l p : BitVec 6) (s : State) : Host.Outcome State Fault Refusal :=
  if configValid s.build v g l p then
    .next (enterStrategy (freshStrategy v) (latchWidths g l p s))
  else
    .next (takeConfigFault (latchWidths g l p s))

end Sys2Proof.Machine
end

