-- ==== Sys2Proof/Machine/Perceptron.lean ====
section
/-! DEFINITION. PREDICT and TRAIN in mode CUSTOM, the perceptron and its MAC unit (43 R170 to R179). -/

namespace Sys2Proof.Machine

/-- Row `perc_hash(pc)` of `PW` (R170, R172). -/
def percRow (b : BuildParams) (st : CustomState) (pc : Addr) : List Int :=
  tableRead (zeroRow b.percH) st.pw (percHash b pc)

/-- What PREDICT records (R173): the sum, its sign as a direction, and the needs-train flag. -/
def customScratch (b : BuildParams) (st : CustomState) (pc : Addr) : Scratch where
  out := percOut (percRow b st pc) st.phist
  pred := signPrediction (percOut (percRow b st pc) st.phist)
  need := needsTrain b (percOut (percRow b st pc) st.phist)

/-- The elements after PREDICT: the scratch state, always all three (R173). -/
def customPredicted (b : BuildParams) (st : CustomState) (pc : Addr) : CustomState :=
  { st with scratch := some (customScratch b st pc) }

/-- The elements after TRAIN, given the prediction and the flag it reads (R174): the row of this command's address is
adjusted with the history before the shift, or not at all; then the history shifts; the scratch state stays. -/
def customTrained (b : BuildParams) (pred : Direction) (need : Bool) (st : CustomState) (pc : Addr) (o : Direction) :
    CustomState where
  pw :=
    if mustTrain pred need o then
      tableWrite (zeroRow b.percH) st.pw (percHash b pc) (nudgeRow b.percK o st.phist (percRow b st pc))
    else st.pw
  phist := shiftIn st.phist (bit o) b.percH
  scratch := st.scratch

/-- PREDICT in mode CUSTOM (R173). -/
def execPredictCustom (pc : Addr) (s : State) : Host.Outcome State Fault Refusal :=
  match s.strategy with
  | .custom st =>
    .next (answerWith (bitOf (customScratch s.build st pc).pred) (.custom (customPredicted s.build st pc)) s)
  | _ => .refused (.rowNotSelected .custom)

/-- TRAIN in mode CUSTOM (R174). Where the scratch state holds no value, its two bits are a free draw (93 U3). -/
def execTrainCustom (pc : Addr) (o : Direction) (s : State) : Host.Outcome State Fault Refusal :=
  match s.strategy with
  | .custom st =>
    .next (answerWith 0#1
      (.custom (customTrained s.build (scratchPred s.draws st.scratch) (scratchNeed s.draws st.scratch) st pc o))
      { s with draws := drawsAfter s.draws st.scratch })
  | _ => .refused (.rowNotSelected .custom)

end Sys2Proof.Machine
end

