-- ==== Sys2Proof/Machine/Stateless.lean ====
section
/-! DEFINITION. PREDICT and TRAIN in the two modes without state of their own, NONE (44 R193, R194) and STATIC
(44 R191, R192). -/

namespace Sys2Proof.Machine

/-- PREDICT in mode NONE answers NotTaken (R193). -/
def execPredictNone (_pc : Addr) (s : State) : Host.Outcome State Fault Refusal :=
  match s.strategy with
  | .none => .next (answer (bitOf .notTaken) s)
  | _ => .refused (.rowNotSelected .none)

/-- TRAIN in mode NONE does nothing (R194). -/
def execTrainNone (_pc : Addr) (_o : Direction) (s : State) : Host.Outcome State Fault Refusal :=
  match s.strategy with
  | .none => .next (answer 0#1 s)
  | _ => .refused (.rowNotSelected .none)

/-- PREDICT in mode STATIC answers Taken (R191). -/
def execPredictStatic (_pc : Addr) (s : State) : Host.Outcome State Fault Refusal :=
  match s.strategy with
  | .static => .next (answer (bitOf .taken) s)
  | _ => .refused (.rowNotSelected .static)

/-- TRAIN in mode STATIC is a no-op (R192). -/
def execTrainStatic (_pc : Addr) (_o : Direction) (s : State) : Host.Outcome State Fault Refusal :=
  match s.strategy with
  | .static => .next (answer 0#1 s)
  | _ => .refused (.rowNotSelected .static)

end Sys2Proof.Machine
end

