-- ==== Sys2Proof/Machine/Tournament.lean ====
section
/-! DEFINITION. PREDICT and TRAIN in mode TOURNAMENT (42 R150 to R156). -/

namespace Sys2Proof.Machine

/-- `LHT[lidx]` (R150). -/
def localHistory (p : Nat) (st : TournamentState) (pc : Addr) : Nat := tableRead 0 st.lht (localIndex pc p)

/-- `gpred` (R151). -/
def globalPrediction (b : BuildParams) (g : Nat) (st : TournamentState) (pc : Addr) : Direction :=
  counterRead (tableRead .weakNotTaken st.gpht (globalIndex b st.ghr pc g))

/-- `lpred` (R152). -/
def localPrediction (l p : Nat) (st : TournamentState) (pc : Addr) : Direction :=
  counterRead (tableRead .weakNotTaken st.lpht (localHistoryIndex (localHistory p st pc) l))

/-- `CHT[cidx]` (R150, R153). -/
def chooserCounter (b : BuildParams) (g : Nat) (st : TournamentState) : Counter :=
  tableRead b.chooserInit st.cht (chooserIndex st.ghr g)

/-- The direction PREDICT answers: the chooser at WeakTaken or above trusts the global predictor (R153). -/
def tournamentPrediction (b : BuildParams) (g l p : Nat) (st : TournamentState) (pc : Addr) : Direction :=
  if 2 ≤ counterValue (chooserCounter b g st) then globalPrediction b g st pc else localPrediction l p st pc

/-- `CHT` after TRAIN: moved only when exactly one sub-prediction is correct (R154). -/
def chooserTrained (b : BuildParams) (g l p : Nat) (st : TournamentState) (pc : Addr) (o : Direction) :
    Table Counter :=
  if globalPrediction b g st pc = o ∧ localPrediction l p st pc ≠ o then
    tableBump b.chooserInit st.cht (chooserIndex st.ghr g) .taken
  else if localPrediction l p st pc = o ∧ globalPrediction b g st pc ≠ o then
    tableBump b.chooserInit st.cht (chooserIndex st.ghr g) .notTaken
  else st.cht

/-- The elements after TRAIN (R154): everything from the state before the command. -/
def tournamentTrained (b : BuildParams) (g l p : Nat) (st : TournamentState) (pc : Addr) (o : Direction) :
    TournamentState where
  ghr := shiftIn st.ghr (bit o) g
  gpht := tableBump .weakNotTaken st.gpht (globalIndex b st.ghr pc g) o
  cht := chooserTrained b g l p st pc o
  lht := tableWrite 0 st.lht (localIndex pc p) (shiftIn (localHistory p st pc) (bit o) l)
  lpht := tableBump .weakNotTaken st.lpht (localHistoryIndex (localHistory p st pc) l) o

/-- PREDICT in mode TOURNAMENT (R153). -/
def execPredictTournament (pc : Addr) (s : State) : Host.Outcome State Fault Refusal :=
  match s.strategy with
  | .tournament st =>
    .next (answer (bitOf (tournamentPrediction s.build s.cfgG.toNat s.cfgL.toNat s.cfgP.toNat st pc)) s)
  | _ => .refused (.rowNotSelected .tournament)

/-- TRAIN in mode TOURNAMENT (R154). -/
def execTrainTournament (pc : Addr) (o : Direction) (s : State) : Host.Outcome State Fault Refusal :=
  match s.strategy with
  | .tournament st =>
    .next (answerWith 0#1
      (.tournament (tournamentTrained s.build s.cfgG.toNat s.cfgL.toNat s.cfgP.toNat st pc o)) s)
  | _ => .refused (.rowNotSelected .tournament)

end Sys2Proof.Machine
end

