-- ==== Sys2Proof/Machine/Dispatch.lean ====
section
/-! DEFINITION. One arm per row of the opcode table (30_encoding R91). -/

namespace Sys2Proof.Machine

def exec (i : Instr) (s : State) : Host.Outcome State Fault Refusal :=
  match i with
  | .init v g l p => Sys2Proof.Machine.execInit v g l p s
  | .predictNone pc => Sys2Proof.Machine.execPredictNone pc s
  | .predictStatic pc => Sys2Proof.Machine.execPredictStatic pc s
  | .predictGshare pc => Sys2Proof.Machine.execPredictGshare pc s
  | .predictTournament pc => Sys2Proof.Machine.execPredictTournament pc s
  | .predictCustom pc => Sys2Proof.Machine.execPredictCustom pc s
  | .trainNone pc o => Sys2Proof.Machine.execTrainNone pc o s
  | .trainStatic pc o => Sys2Proof.Machine.execTrainStatic pc o s
  | .trainGshare pc o => Sys2Proof.Machine.execTrainGshare pc o s
  | .trainTournament pc o => Sys2Proof.Machine.execTrainTournament pc o s
  | .trainCustom pc o => Sys2Proof.Machine.execTrainCustom pc o s

end Sys2Proof.Machine
end

