-- ==== Sys2Proof/Machine/Step.lean ====
section
/-! DEFINITION. One step: the unit takes the next thing the driver presents (30_encoding R92, 70_reset R237). -/

namespace Sys2Proof.Machine

/-- One step of the unit. With nothing presented the unit waits unchanged (R215, R237). `rst` is power-on reset
(R230). An illegal word is answered ILLEGAL (R214); any other word runs the row MODE selects (R91, R190). -/
def step (s : State) : Host.Outcome State Fault Refusal :=
  match takeInput s with
  | Option.none => .next s
  | some (.rst, t) => .next (powerOn t)
  | some (.command w, t) =>
    match decode (mode t) w with
    | Option.none => .next (takeIllegalCommand t)
    | some i => exec i t

/-- `s` with a table word presented as the driver's next command (log entry 2). -/
def State.withFetchWord (s : State) (nbits w : Nat) : State := presentCommand (tableWord nbits w) s

end Sys2Proof.Machine
end

