-- ==== Sys2Proof/Safety.lean ====
section
/-! DEFINITION. The terms claims are stated in: the invariant of every reachable state (10_state R37), the driver's
predict-then-train contract (70_reset R233), branch events (30_encoding R90), and what a command leaves alone. -/

namespace Sys2Proof.Machine

/-- R37 for mode GSHARE: a legal width, a masked history, counters at indices below `2^G`. -/
abbrev GshareOk (b : BuildParams) (g : Nat) (st : GshareState) : Prop :=
  1 ≤ g ∧ g ≤ b.maxW ∧ st.ghr < 2 ^ g ∧ Table.wf (2 ^ g) .weakNotTaken st.gpht

/-- R37 for mode TOURNAMENT. -/
abbrev TournamentOk (b : BuildParams) (g l p : Nat) (st : TournamentState) : Prop :=
  (1 ≤ g ∧ g ≤ b.maxW) ∧ (1 ≤ l ∧ l ≤ b.maxW) ∧ (1 ≤ p ∧ p ≤ b.maxW) ∧ st.ghr < 2 ^ g ∧
    Table.wf (2 ^ g) .weakNotTaken st.gpht ∧ Table.wf (2 ^ g) b.chooserInit st.cht ∧
    Table.wf (2 ^ p) 0 st.lht ∧ (∀ e ∈ st.lht, e.2 < 2 ^ l) ∧ Table.wf (2 ^ l) .weakNotTaken st.lpht

/-- A row of `PW` (R31): `PERC_H + 1` weights, each in the signed range. -/
abbrev RowOk (b : BuildParams) (row : List Int) : Prop :=
  row.length = b.percH + 1 ∧ ∀ w ∈ row, weightMin b.percK ≤ w ∧ w ≤ weightMax b.percK

/-- The scratch state (R33, R173, R179): a sum within the accumulator's bounds, its sign and its margin. -/
abbrev ScratchOk (b : BuildParams) (sc : Scratch) : Prop :=
  -((b.percH + 1 : Int) * 2 ^ (b.percK - 1)) ≤ sc.out ∧ sc.out ≤ (b.percH + 1 : Int) * 2 ^ (b.percK - 1) - 1 ∧
    (sc.pred = .taken ↔ 0 ≤ sc.out) ∧ (sc.need = true ↔ sc.out.natAbs < b.percTheta)

/-- R37 for mode CUSTOM. -/
abbrev CustomOk (b : BuildParams) (st : CustomState) : Prop :=
  Table.wf b.percS (zeroRow b.percH) st.pw ∧ (∀ e ∈ st.pw, RowOk b e.2) ∧ st.phist < 2 ^ b.percH ∧
    ∀ sc ∈ st.scratch, ScratchOk b sc

/-- R37 for the active strategy at the widths `g`, `l`, `p`. -/
def StrategyOk (b : BuildParams) (g l p : Nat) : Strategy → Prop
  | .none => True
  | .static => True
  | .gshare st => GshareOk b g st
  | .tournament st => TournamentOk b g l p st
  | .custom st => CustomOk b st

/-- What holds of every reachable state: R6 and R37; `CFG_FAULT = 1` only in mode NONE (R195, R217); in mode NONE
without a fault the widths are those of power-on (R230); and the response port shows the last response (R92). -/
def State.Inv (s : State) : Prop :=
  s.build.Legal ∧
  StrategyOk s.build s.cfgG.toNat s.cfgL.toNat s.cfgP.toNat s.strategy ∧
  (s.cfgFault = true → s.strategy = .none) ∧
  (s.strategy = .none → s.cfgFault = false → s.cfgG = 0#6 ∧ s.cfgL = 0#6 ∧ s.cfgP = 0#6) ∧
  ∀ r ∈ s.rsp, s.responses.getLast? = some r

/-- Where the driver stands in the contract of R233. -/
inductive Phase where
  /-- No INIT yet since power-on. -/
  | beforeInit
  /-- An INIT has been issued and every PREDICT has had its TRAIN. -/
  | ready
  /-- `PREDICT pc` has been issued; its TRAIN is owed. -/
  | awaiting (pc : Addr)
  deriving DecidableEq, Repr

/-- One command under the contract `INIT ( INIT | PREDICT(pc) TRAIN(pc, o) )*` (R233); `none` breaks it. -/
def contractNext : Phase → Command → Option Phase
  | .beforeInit, .init _ _ _ _ => some .ready
  | .ready, .init _ _ _ _ => some .ready
  | .ready, .predict pc => some (.awaiting pc)
  | .awaiting pc, .train pc' _ => if pc' = pc then some .ready else Option.none
  | _, _ => Option.none

/-- The driver's inputs obey the contract from phase `ph` on (R233). An illegal word counts as no command (R214);
`rst` starts the sequence over (log entry 13). -/
def obeysContract : Phase → List Input → Bool
  | .awaiting _, [] => false
  | _, [] => true
  | _, .rst :: rest => obeysContract .beforeInit rest
  | ph, .command w :: rest =>
    match decodeCommand w with
    | Option.none => obeysContract ph rest
    | some c =>
      match contractNext ph c with
      | Option.none => false
      | some ph' => obeysContract ph' rest

/-- The power-on values of MODE, `CFG_FAULT` and the widths (R230). -/
abbrev AtPowerOn (s : State) : Prop :=
  s.strategy = .none ∧ s.cfgFault = false ∧ s.cfgG = 0#6 ∧ s.cfgL = 0#6 ∧ s.cfgP = 0#6

/-- The driver obeys the contract from phase `ph` on; before the first INIT the unit is still at its power-on values;
and while a TRAIN is owed in mode CUSTOM the scratch state holds a value (R33, R230, R233, 93 U3). -/
abbrev ContractInv (ph : Phase) (s : State) : Prop :=
  obeysContract ph s.inputs = true ∧ (ph = .beforeInit → AtPowerOn s) ∧
    ∀ pc, ph = .awaiting pc → ∀ st, s.strategy = .custom st → st.scratch ≠ Option.none

/-- The inputs of a list of branch events: `predict pc` then `train pc, o` for each (R90). -/
def branchInputs : List (Addr × Direction) → List Input
  | [] => []
  | (pc, o) :: es =>
    .command (encodeCommand (.predict pc)) :: .command (encodeCommand (.train pc o)) :: branchInputs es

/-- How many commands stand in a list of inputs: all but `rst`. -/
def commandCount : List Input → Nat
  | [] => 0
  | .rst :: rest => commandCount rest
  | .command _ :: rest => commandCount rest + 1

/-- The integer formed by the last `min(N, W)` of the outcomes `os` (given oldest first), most recent as bit 0 (R112). -/
def lastOutcomes (w : Nat) (os : List Direction) : Nat :=
  ∑ j ∈ Finset.range (min os.length w), bit (os.reverse.getD j .notTaken) * 2 ^ j

/-- `GHR`, in the two modes it exists in (R26). -/
def globalHistory : Strategy → Option Nat
  | .gshare st => some st.ghr
  | .tournament st => some st.ghr
  | _ => Option.none

/-- Along the branch events `es` the two sub-predictors are always both right or both wrong. -/
def alwaysAgree (b : BuildParams) (g l p : Nat) : TournamentState → List (Addr × Direction) → Prop
  | _, [] => True
  | st, (pc, o) :: es =>
    (globalPrediction b g st pc = o ↔ localPrediction l p st pc = o) ∧
      alwaysAgree b g l p (tournamentTrained b g l p st pc o) es

/-- `t` is `s` after the response `r`, with nothing else changed outside the strategy's elements and the count of
free draws. -/
abbrev OnlyElementsChange (s t : State) (r : Response) : Prop :=
  t.build = s.build ∧ t.cfgFault = s.cfgFault ∧ t.cfgG = s.cfgG ∧ t.cfgL = s.cfgL ∧ t.cfgP = s.cfgP ∧
    t.inputs = s.inputs ∧ t.rsp = some r ∧ t.responses = s.responses ++ [r]

/-- `s` after the response `r` and no other effect. -/
abbrev withResponse (s : State) (r : Response) : State :=
  { s with rsp := some r, responses := s.responses ++ [r] }

end Sys2Proof.Machine
end

