-- ==== Sys2Proof/Certificates/Slice0/Obligations.lean ====
section
/-! DEFINITION. The statements for the provers, each from the numbered rules its docstring names. -/

open Sys2Proof Sys2Proof.Machine

/-! ### Encoding -/

/-- Words of the spec's vectors V11 and V12 (95_test_vectors), one or more for each format, decode as it says. -/
def Obligations.SpecVectorWordsDecode : Prop :=
  decode .none 0x000000201#36 = some (.init 1#8 2#6 0#6 0#6) ∧
  decode .custom 0x000108202#36 = some (.init 2#8 2#6 2#6 1#6) ∧
  decode .static 0x000A28902#36 = some (.init 2#8 9#6 10#6 10#6) ∧
  decode .none 0x400000040#36 = some (.predictNone 0x40#32) ∧
  decode .static 0x400000040#36 = some (.predictStatic 0x40#32) ∧
  decode .gshare 0x4FFFFFFFF#36 = some (.predictGshare 0xFFFFFFFF#32) ∧
  decode .tournament 0x400000001#36 = some (.predictTournament 0x1#32) ∧
  decode .custom 0x400000005#36 = some (.predictCustom 0x5#32) ∧
  decode .none 0x900000000#36 = some (.trainNone 0x0#32 .taken) ∧
  decode .static 0x800000040#36 = some (.trainStatic 0x40#32 .notTaken) ∧
  decode .gshare 0x900000004#36 = some (.trainGshare 0x4#32 .taken) ∧
  decode .tournament 0x800000001#36 = some (.trainTournament 0x1#32 .notTaken) ∧
  decode .custom 0x9FFFFFFFF#36 = some (.trainCustom 0xFFFFFFFF#32 .taken) ∧
  decode .none 0xC00000000#36 = none ∧ decode .gshare 0x500000000#36 = none ∧
  decode .custom 0xA00000000#36 = none ∧ decode .tournament 0x004000201#36 = none

/-- Every instruction of the table, with every operand at every value its field holds, decodes from its word in every
mode that selects it (R81 to R85, R91). -/
def Obligations.DecodeOfEncode : Prop :=
  ∀ (m : Mode) (i : Instr), wellFormedIn m i = true → decode m (encode i) = some i

/-- Every word that decodes is the word of the instruction it decodes to, and MODE selects that row (R81 to R85, R91). -/
def Obligations.EncodeOfDecode : Prop :=
  ∀ (m : Mode) (w : CmdWord) (i : Instr), decode m w = some i → encode i = w ∧ wellFormedIn m i = true

/-- A word is illegal exactly when `op` is 11 or a reserved bit of its format is 1, in every mode (R87, R88). -/
def Obligations.IllegalWordsCharacterized : Prop :=
  ∀ (m : Mode) (w : CmdWord), decode m w = none ↔
    w.toNat / 2 ^ 34 = 3 ∨
    (w.toNat / 2 ^ 34 = 0 ∧ w.toNat / 2 ^ 26 % 2 ^ 8 ≠ 0) ∨
    (w.toNat / 2 ^ 34 = 1 ∧ w.toNat / 2 ^ 32 % 2 ^ 2 ≠ 0) ∨
    (w.toNat / 2 ^ 34 = 2 ∧ w.toNat / 2 ^ 33 % 2 ≠ 0)

/-- The decoder agrees with the `match` and `mask` of the three formats (R82, R83, R84). -/
def Obligations.DecoderAgreesWithMatchAndMask : Prop :=
  ∀ w : CmdWord,
    ((∃ v g l p, decodeCommand w = some (.init v g l p)) ↔ w &&& 0xFFC000000#36 = 0x000000000#36) ∧
    ((∃ pc, decodeCommand w = some (.predict pc)) ↔ w &&& 0xF00000000#36 = 0x400000000#36) ∧
    ((∃ pc o, decodeCommand w = some (.train pc o)) ↔ w &&& 0xE00000000#36 = 0x800000000#36)

/-! ### The step and the run -/

/-- A step whose next command word decodes to a well-formed instruction is `exec` of it on the state with that command
taken; and presenting an instruction's word makes the very next step run it (R91, R190; log entries 1, 2). -/
def Obligations.StepRunsTheDecodedInstruction : Prop :=
  (∀ (s : State) (w : CmdWord) (rest : List Input) (i : Instr),
    s.inputs = .command w :: rest → decode (mode s) w = some i → wellFormedIn (mode s) i = true →
      step s = exec i { s with inputs := rest }) ∧
  (∀ (s : State) (i : Instr), decode (mode s) (encode i) = some i →
    step (s.withFetchWord 36 (encode i).toNat) = exec i s)

/-- An illegal word changes no state, is answered ILLEGAL with `dir` 0, and counts as no command for the contract
(R214). -/
def Obligations.IllegalWordHasNoEffect : Prop :=
  ∀ (s : State) (w : CmdWord) (rest : List Input), decodeCommand w = none →
    (s.inputs = .command w :: rest →
      step s = .next { s with
        inputs := rest, rsp := some ⟨.illegal, 0#1⟩, responses := s.responses ++ [⟨.illegal, 0#1⟩] }) ∧
    ∀ ph : Phase, obeysContract ph (.command w :: rest) = obeysContract ph rest

/-- The power-on state, and that `rst` brings any state back to it (R230). That no response is present after `rst`, and
that the driver's inputs and record stay, is the model's reading (log entries 3, 4). -/
def Obligations.PowerOnState : Prop :=
  (mode State.reset = .none ∧ State.reset.strategy = .none ∧ State.reset.cfgFault = false ∧
    State.reset.cfgG = 0#6 ∧ State.reset.cfgL = 0#6 ∧ State.reset.cfgP = 0#6) ∧
  ∀ (s : State) (rest : List Input), s.inputs = .rst :: rest →
    step s = .next { s with
      inputs := rest, strategy := .none, cfgFault := false, cfgG := 0#6, cfgL := 0#6, cfgP := 0#6, rsp := none }

/-- The invariant holds of the power-on state (R37, R230). -/
def Obligations.InvariantAtReset : Prop := State.reset.Inv

/-- Every step keeps the invariant of R37: counters, histories and weights in their ranges, tables in canonical form
with every index in range, legal widths in the modes that use them. -/
def Obligations.EveryStepKeepsTheInvariant : Prop :=
  ∀ s t : State, s.Inv → step s = .next t → t.Inv

/-- Every step of every state completes: no step faults, and none is refused (R10, R237). -/
def Obligations.EveryStepCompletes : Prop :=
  ∀ s : State, ∃ t, step s = .next t

/-- An instruction has its effect exactly in the modes that select its row, and is refused by name in the others
(R190, R91; log entry 12). -/
def Obligations.ExecutesExactlyTheSelectedRows : Prop :=
  ∀ (i : Instr) (s : State),
    (wellFormedIn (mode s) i = true → ∃ t, exec i s = .next t) ∧
    (wellFormedIn (mode s) i = false → ∃ m, i.rowMode = some m ∧ exec i s = .refused (.rowNotSelected m))

/-- MODE, `CFG_FAULT` and the width registers change only at INIT and at `rst` (R23, R24, R25, R190). -/
def Obligations.ConfigurationChangesOnlyAtInitOrReset : Prop :=
  ∀ s t : State, step s = .next t →
    (∀ rest, s.inputs ≠ .rst :: rest) →
    (∀ w rest v g l p, s.inputs = .command w :: rest → decodeCommand w ≠ some (.init v g l p)) →
    mode t = mode s ∧ t.cfgFault = s.cfgFault ∧ t.cfgG = s.cfgG ∧ t.cfgL = s.cfgL ∧ t.cfgP = s.cfgP

/-- The output `fault_o` after a step: set by an INIT that faults, cleared by one that succeeds and by `rst`, and
otherwise as it was (R24, R92). -/
def Obligations.FaultOutputFollowsInit : Prop :=
  ∀ s t : State, step s = .next t →
    faultO t =
      match s.inputs with
      | [] => faultO s
      | .rst :: _ => false
      | .command w :: _ =>
        match decodeCommand w with
        | some (.init v g l p) => !configValid s.build v g l p
        | _ => faultO s

/-- No command and no reset changes a build parameter, over any number of steps (R232). -/
def Obligations.BuildParametersNeverChange : Prop :=
  ∀ (n : Nat) (s t : State), Sys2Proof.core.run n s = .next t → t.build = s.build

/-- PREDICT outside mode CUSTOM changes no element of the unit but the response, so an extra one is harmless
(R65, R213). -/
def Obligations.PredictOutsideCustomChangesNothing : Prop :=
  ∀ (s : State) (w : CmdWord) (rest : List Input) (pc : Addr),
    s.inputs = .command w :: rest → decodeCommand w = some (.predict pc) → mode s ≠ .custom →
    ∃ d, step s = .next { s with inputs := rest, rsp := some ⟨.ok, d⟩, responses := s.responses ++ [⟨.ok, d⟩] }

/-- Within mode CUSTOM the scratch state is written by PREDICT and by nothing else (R33). -/
def Obligations.ScratchIsWrittenOnlyByPredict : Prop :=
  ∀ (s t : State) (st st' : CustomState), step s = .next t → s.strategy = .custom st → t.strategy = .custom st' →
    (∀ w rest, s.inputs = .command w :: rest →
      (∀ pc, decodeCommand w ≠ some (.predict pc)) ∧ ∀ v g l p, decodeCommand w ≠ some (.init v g l p)) →
    st'.scratch = st.scratch

/-- Every command word is answered in one step by one response: INIT with OK or CFG_FAULT, PREDICT with OK and a
direction, TRAIN with OK, an illegal word with ILLEGAL, `dir` 0 in all but PREDICT (R86). -/
def Obligations.EveryCommandIsAnswered : Prop :=
  ∀ (s : State) (w : CmdWord) (rest : List Input), s.inputs = .command w :: rest →
    ∃ t r, step s = .next t ∧ t.inputs = rest ∧ t.rsp = some r ∧ t.responses = s.responses ++ [r] ∧
      match decodeCommand w with
      | none => r = ⟨.illegal, 0#1⟩
      | some (.init v g l p) => r = ⟨if configValid s.build v g l p then .ok else .cfgFault, 0#1⟩
      | some (.predict _) => r.status = .ok
      | some (.train _ _) => r = ⟨.ok, 0#1⟩

/-- The codes of the response word: status in bits 2:1, `dir` in bit 0, status 11 never produced (R86, V12). -/
def Obligations.ResponseWordCodes : Prop :=
  responseWord ⟨.ok, 0#1⟩ = 0b000#3 ∧ responseWord ⟨.ok, 1#1⟩ = 0b001#3 ∧
  responseWord ⟨.cfgFault, 0#1⟩ = 0b010#3 ∧ responseWord ⟨.illegal, 0#1⟩ = 0b100#3 ∧
  ∀ r : Response, (responseWord r).toNat / 2 ≠ 3

/-- A run over a list of inputs always completes, takes exactly those inputs in their order, and records one response
for each command among them (R68, R237). -/
def Obligations.OneResponsePerCommand : Prop :=
  ∀ (a b : List Input) (s : State), s.inputs = a ++ b →
    ∃ t rs, Sys2Proof.core.run a.length s = .next t ∧ t.inputs = b ∧
      t.responses = s.responses ++ rs ∧ rs.length = commandCount a

/-- What a list of inputs does never depends on what the driver will present after it (R68, R235). -/
def Obligations.LaterInputsDoNotMatter : Prop :=
  ∀ (a b : List Input) (s t : State), s.inputs = a →
    Sys2Proof.core.run a.length s = .next t →
    Sys2Proof.core.run a.length { s with inputs := a ++ b } = .next { t with inputs := b }

/-! ### Counter and history primitives -/

/-- `mask` and `shift_in` as integer functions (R110, R111). -/
def Obligations.MaskAndShiftIn : Prop :=
  ∀ w v h b : Nat, b ≤ 1 →
    mask w = 2 ^ w - 1 ∧ v &&& mask w = v % 2 ^ w ∧ shiftIn h b w = (2 * h + b) % 2 ^ w ∧ shiftIn h b w < 2 ^ w

/-- After N updates from 0 a history register of width W is the integer formed by the last min(N, W) outcomes, most
recent as bit 0 (R112). -/
def Obligations.HistoryLaw : Prop :=
  ∀ (w : Nat) (os : List Direction),
    os.foldl (fun h o => shiftIn h (bit o) w) 0 =
      ∑ j ∈ Finset.range (min os.length w), bit (os.reverse.getD j .notTaken) * 2 ^ j

/-- `bump` clamps at 3 and at 0, and `read` is Taken iff the state is at least WeakTaken, bit 1 of the state
(R113, R114). -/
def Obligations.BumpAndRead : Prop :=
  ∀ s : Counter,
    counterValue (bump s .taken) = min (counterValue s + 1) 3 ∧
    (counterValue (bump s .notTaken) : Int) = max ((counterValue s : Int) - 1) 0 ∧
    (counterRead s = .taken ↔ 2 ≤ counterValue s) ∧
    (counterRead s = .notTaken ↔ counterValue s ≤ 1) ∧
    bit (counterRead s) = counterValue s / 2

/-- `n` bumps in one direction move a counter by `n` and clamp; from three on the extreme is reached (R115). -/
def Obligations.SaturationLaw : Prop :=
  ∀ (n : Nat) (s : Counter),
    counterValue ((fun c => bump c .taken)^[n] s) = min (counterValue s + n) 3 ∧
    (counterValue ((fun c => bump c .notTaken)^[n] s) : Int) = max ((counterValue s : Int) - n) 0 ∧
    (3 ≤ n → (fun c => bump c .taken)^[n] s = .strongTaken ∧ (fun c => bump c .notTaken)^[n] s = .strongNotTaken)

/-- Two canonical tables that read the same at every index are the same data (R61; log entry 7). -/
def Obligations.CanonicalTablesAreDeterminedByTheirEntries : Prop :=
  ∀ (size : Nat) (d : Counter) (t t' : Table Counter), Table.wf size d t → Table.wf size d t' →
    (∀ i, tableRead d t i = tableRead d t' i) → t = t'

/-- Every index a rule forms is below the size of the table it indexes (R61, R110, R170). -/
def Obligations.EveryIndexIsInRange : Prop :=
  ∀ (b : BuildParams) (h g l p : Nat) (pc : Addr), b.Legal →
    gshareIndex h pc g < 2 ^ g ∧ globalIndex b h pc g < 2 ^ g ∧ chooserIndex h g < 2 ^ g ∧
    localIndex pc p < 2 ^ p ∧ localHistoryIndex h l < 2 ^ l ∧ percHash b pc < b.percS

/-- The Gshare index: the history XOR the address, masked; addresses that agree in their low `G` bits alias under
every history; a masked history is XORed with the low bits (R140). -/
def Obligations.GshareIndexAliases : Prop :=
  ∀ (h g : Nat) (pc pc' : Addr),
    gshareIndex h pc g = (h ^^^ pc.toNat) % 2 ^ g ∧
    (pc.toNat % 2 ^ g = pc'.toNat % 2 ^ g → gshareIndex h pc g = gshareIndex h pc' g) ∧
    (h < 2 ^ g → gshareIndex h pc g = h ^^^ (pc.toNat % 2 ^ g))

/-! ### INIT -/

/-- When a configuration is valid (R196). -/
def Obligations.ConfigValidity : Prop :=
  ∀ (b : BuildParams) (v : BitVec 8) (g l p : BitVec 6), configValid b v g l p = true ↔
    v.toNat = 0 ∨
    (v.toNat = 1 ∧ 1 ≤ g.toNat ∧ g.toNat ≤ b.maxW) ∨
    (v.toNat = 2 ∧ (1 ≤ g.toNat ∧ g.toNat ≤ b.maxW) ∧ (1 ≤ l.toNat ∧ l.toNat ≤ b.maxW) ∧
      (1 ≤ p.toNat ∧ p.toNat ≤ b.maxW)) ∨
    v.toNat = 3

/-- A ConfigFault has a cause exactly when the configuration is not valid, and the cause named is the first in R216's
order whose condition holds (R211, R216). -/
def Obligations.FaultCauseIsTheFirstThatHolds : Prop :=
  ∀ (b : BuildParams) (v : BitVec 8) (g l p : BitVec 6),
    ((faultCause b v g l p).isSome = true ↔ configValid b v g l p = false) ∧
    faultCause b v g l p =
      (([(FaultCause.unknownVariant, decide (4 ≤ v.toNat)),
        (.zeroWidthG, decide ((v.toNat = 1 ∨ v.toNat = 2) ∧ g.toNat = 0)),
        (.zeroWidthL, decide (v.toNat = 2 ∧ l.toNat = 0)),
        (.zeroWidthP, decide (v.toNat = 2 ∧ p.toNat = 0)),
        (.widthTooLargeG, decide ((v.toNat = 1 ∨ v.toNat = 2) ∧ b.maxW < g.toNat)),
        (.widthTooLargeL, decide (v.toNat = 2 ∧ b.maxW < l.toNat)),
        (.widthTooLargeP, decide (v.toNat = 2 ∧ b.maxW < p.toNat))] : List (FaultCause × Bool)).find?
          (fun e => e.2)).map (fun e => e.1)

/-- INIT with a valid configuration, in every mode and whatever the state was: the new mode with every element at its
reset value, the widths latched, `CFG_FAULT` 0, the response OK, and nothing else changed (R195, R197, R36). -/
def Obligations.InitBuildsTheRequestedMode : Prop :=
  ∀ (s : State) (v : BitVec 8) (g l p : BitVec 6), configValid s.build v g l p = true →
    ∃ t, exec (.init v g l p) s = .next t ∧
      t.build = s.build ∧ t.inputs = s.inputs ∧ t.draws = s.draws ∧
      t.cfgFault = false ∧ t.cfgG = g ∧ t.cfgL = l ∧ t.cfgP = p ∧
      t.rsp = some ⟨.ok, 0#1⟩ ∧ t.responses = s.responses ++ [⟨.ok, 0#1⟩] ∧
      (v = 0#8 → t.strategy = .static) ∧
      (v = 1#8 → ∃ st, t.strategy = .gshare st ∧ st.ghr = 0 ∧
        ∀ i, tableRead .weakNotTaken st.gpht i = .weakNotTaken) ∧
      (v = 2#8 → ∃ st, t.strategy = .tournament st ∧ st.ghr = 0 ∧
        (∀ i, tableRead .weakNotTaken st.gpht i = .weakNotTaken) ∧
        (∀ i, tableRead s.build.chooserInit st.cht i = s.build.chooserInit) ∧
        (∀ i, tableRead 0 st.lht i = 0) ∧
        (∀ i, tableRead .weakNotTaken st.lpht i = .weakNotTaken)) ∧
      (v = 3#8 → ∃ st, t.strategy = .custom st ∧ st.phist = 0 ∧ st.scratch = none ∧
        ∀ i, tableRead (zeroRow s.build.percH) st.pw i = List.replicate (s.build.percH + 1) 0)

/-- INIT with an invalid configuration takes the configuration fault: MODE is NONE, `CFG_FAULT` is 1, nothing of a
strategy exists, the fields are latched, the response is CFG_FAULT, and nothing else changes (R195, R212, R217). -/
def Obligations.InitTakesTheConfigFault : Prop :=
  ∀ (s : State) (v : BitVec 8) (g l p : BitVec 6), configValid s.build v g l p = false →
    exec (.init v g l p) s = .next { s with
      cfgG := g, cfgL := l, cfgP := p, strategy := .none, cfgFault := true,
      rsp := some ⟨.cfgFault, 0#1⟩, responses := s.responses ++ [⟨.cfgFault, 0#1⟩] }

/-- Nothing learned survives an INIT: from two states of one machine, whatever their modes, tables and faults, the same
INIT leaves the same unit (R198). -/
def Obligations.InitForgetsTheOldState : Prop :=
  ∀ (s s' : State) (v : BitVec 8) (g l p : BitVec 6), s.build = s'.build →
    ∃ t t', exec (.init v g l p) s = .next t ∧ exec (.init v g l p) s' = .next t' ∧
      t.strategy = t'.strategy ∧ t.cfgFault = t'.cfgFault ∧ t.cfgG = t'.cfgG ∧ t.cfgL = t'.cfgL ∧
      t.cfgP = t'.cfgP ∧ t.rsp = t'.rsp

/-! ### Modes NONE and STATIC -/

/-- In mode NONE, however it was entered, every PREDICT answers OK, NotTaken, every TRAIN answers OK, and neither
changes the unit (R193, R194). That this holds after power-on and after every configuration fault, the TRAIN without
effect and the status OK are decisions of the spec's own (92 D16, D17, D27; log entry 17). -/
def Obligations.NoneModeCommands : Prop :=
  ∀ (s : State) (pc : Addr) (o : Direction), s.strategy = .none →
    exec (.predictNone pc) s = .next (withResponse s ⟨.ok, 0#1⟩) ∧
    exec (.trainNone pc o) s = .next (withResponse s ⟨.ok, 0#1⟩)

/-- In mode STATIC every PREDICT answers OK, Taken, every TRAIN answers OK, and neither changes the unit
(R191, R192). -/
def Obligations.StaticModeCommands : Prop :=
  ∀ (s : State) (pc : Addr) (o : Direction), s.strategy = .static →
    exec (.predictStatic pc) s = .next (withResponse s ⟨.ok, 1#1⟩) ∧
    exec (.trainStatic pc o) s = .next (withResponse s ⟨.ok, 0#1⟩)

/-! ### Mode GSHARE -/

/-- PREDICT in mode GSHARE answers `read` of the counter at `(GHR XOR pc) & mask(G)` and changes nothing (R141). -/
def Obligations.PredictGshareReadsTheCounter : Prop :=
  ∀ (s : State) (st : GshareState) (pc : Addr), s.strategy = .gshare st →
    exec (.predictGshare pc) s = .next (withResponse s ⟨.ok,
      bitOf (counterRead
        (tableRead .weakNotTaken st.gpht ((st.ghr ^^^ pc.toNat) % 2 ^ s.cfgG.toNat)))⟩)

/-- TRAIN in mode GSHARE bumps the counter indexed with the history before the command, shifts the outcome into GHR,
and changes nothing else (R142). -/
def Obligations.TrainGshareBumpsAndShifts : Prop :=
  ∀ (s : State) (st : GshareState) (pc : Addr) (o : Direction), s.strategy = .gshare st →
    ∃ t st', exec (.trainGshare pc o) s = .next t ∧ OnlyElementsChange s t ⟨.ok, 0#1⟩ ∧ t.draws = s.draws ∧
      t.strategy = .gshare st' ∧
      st'.ghr = (2 * st.ghr + bit o) % 2 ^ s.cfgG.toNat ∧
      ∀ i, tableRead .weakNotTaken st'.gpht i =
        if i = (st.ghr ^^^ pc.toNat) % 2 ^ s.cfgG.toNat then bump (tableRead .weakNotTaken st.gpht i) o
        else tableRead .weakNotTaken st.gpht i

/-! ### Mode TOURNAMENT -/

/-- The four indices of mode TOURNAMENT for both settings of `TOURN_GIDX_XOR`; masked histories index as they are; the
global and the chooser index are equal exactly when the low `G` bits of the address are 0 or the address is not folded
in (R150). -/
def Obligations.TournamentIndexFormulas : Prop :=
  ∀ (b : BuildParams) (h g l p lhv : Nat) (pc : Addr),
    globalIndex b h pc g = (if b.tournGidxXor = true then (h ^^^ pc.toNat) % 2 ^ g else h % 2 ^ g) ∧
    chooserIndex h g = h % 2 ^ g ∧ localIndex pc p = pc.toNat % 2 ^ p ∧ localHistoryIndex lhv l = lhv % 2 ^ l ∧
    (h < 2 ^ g → chooserIndex h g = h) ∧ (lhv < 2 ^ l → localHistoryIndex lhv l = lhv) ∧
    (globalIndex b h pc g = chooserIndex h g ↔ b.tournGidxXor = false ∨ pc.toNat % 2 ^ g = 0)

/-- PREDICT in mode TOURNAMENT: the chooser entry at `GHR & mask(G)` picks the global or the local prediction, and
nothing changes (R150 to R153). -/
def Obligations.PredictTournamentFollowsTheChooser : Prop :=
  ∀ (s : State) (st : TournamentState) (pc : Addr) (gidx lh : Nat), s.strategy = .tournament st →
    gidx = (if s.build.tournGidxXor = true then st.ghr ^^^ pc.toNat else st.ghr) % 2 ^ s.cfgG.toNat →
    lh = tableRead 0 st.lht (pc.toNat % 2 ^ s.cfgP.toNat) % 2 ^ s.cfgL.toNat →
    exec (.predictTournament pc) s = .next (withResponse s ⟨.ok, bitOf
      (if 2 ≤ counterValue (tableRead s.build.chooserInit st.cht (st.ghr % 2 ^ s.cfgG.toNat)) then
        counterRead (tableRead .weakNotTaken st.gpht gidx)
      else counterRead (tableRead .weakNotTaken st.lpht lh))⟩)

/-- TRAIN in mode TOURNAMENT: the chooser entry moves only when exactly one sub-prediction is correct, both counters
are bumped, both histories shifted, all indexed from the state before the command, and nothing else changes (R154). -/
def Obligations.TrainTournamentUpdatesBothPredictors : Prop :=
  ∀ (s : State) (st : TournamentState) (pc : Addr) (o gpred lpred : Direction) (gidx cidx lidx lh : Nat),
    s.strategy = .tournament st →
    gidx = (if s.build.tournGidxXor = true then st.ghr ^^^ pc.toNat else st.ghr) % 2 ^ s.cfgG.toNat →
    cidx = st.ghr % 2 ^ s.cfgG.toNat →
    lidx = pc.toNat % 2 ^ s.cfgP.toNat →
    lh = tableRead 0 st.lht lidx % 2 ^ s.cfgL.toNat →
    gpred = counterRead (tableRead .weakNotTaken st.gpht gidx) →
    lpred = counterRead (tableRead .weakNotTaken st.lpht lh) →
    ∃ t st', exec (.trainTournament pc o) s = .next t ∧ OnlyElementsChange s t ⟨.ok, 0#1⟩ ∧ t.draws = s.draws ∧
      t.strategy = .tournament st' ∧
      st'.ghr = (2 * st.ghr + bit o) % 2 ^ s.cfgG.toNat ∧
      (∀ i, tableRead .weakNotTaken st'.gpht i =
        if i = gidx then bump (tableRead .weakNotTaken st.gpht i) o else tableRead .weakNotTaken st.gpht i) ∧
      (∀ i, tableRead .weakNotTaken st'.lpht i =
        if i = lh then bump (tableRead .weakNotTaken st.lpht i) o else tableRead .weakNotTaken st.lpht i) ∧
      (∀ i, tableRead 0 st'.lht i =
        if i = lidx then (2 * tableRead 0 st.lht i + bit o) % 2 ^ s.cfgL.toNat else tableRead 0 st.lht i) ∧
      ∀ i, tableRead s.build.chooserInit st'.cht i =
        if i = cidx ∧ gpred = o ∧ lpred ≠ o then bump (tableRead s.build.chooserInit st.cht i) .taken
        else if i = cidx ∧ lpred = o ∧ gpred ≠ o then bump (tableRead s.build.chooserInit st.cht i) .notTaken
        else tableRead s.build.chooserInit st.cht i

/-- After any TRAIN in mode TOURNAMENT both sub-predictors reflect the outcome, and what becomes of them does not
depend on the chooser table (R156). -/
def Obligations.BothPredictorsAreAlwaysTrained : Prop :=
  ∀ (s : State) (st : TournamentState) (cht' : Table Counter) (pc : Addr) (o : Direction),
    s.strategy = .tournament st → 1 ≤ s.cfgG.toNat → 1 ≤ s.cfgL.toNat →
    ∃ t t' st1 st2, exec (.trainTournament pc o) s = .next t ∧
      exec (.trainTournament pc o) { s with strategy := .tournament { st with cht := cht' } } = .next t' ∧
      t.strategy = .tournament st1 ∧ t'.strategy = .tournament st2 ∧
      st1.ghr = st2.ghr ∧ st1.gpht = st2.gpht ∧ st1.lht = st2.lht ∧ st1.lpht = st2.lpht ∧
      st1.ghr % 2 = bit o ∧ tableRead 0 st1.lht (pc.toNat % 2 ^ s.cfgP.toNat) % 2 = bit o ∧
      tableRead .weakNotTaken st1.gpht (globalIndex s.build st.ghr pc s.cfgG.toNat) =
        bump (tableRead .weakNotTaken st.gpht (globalIndex s.build st.ghr pc s.cfgG.toNat)) o ∧
      tableRead .weakNotTaken st1.lpht
          (localHistoryIndex (localHistory s.cfgP.toNat st pc) s.cfgL.toNat) =
        bump (tableRead .weakNotTaken st.lpht
          (localHistoryIndex (localHistory s.cfgP.toNat st pc) s.cfgL.toNat)) o

/-- Over a branch sequence in which the two sub-predictors are always simultaneously correct or simultaneously
incorrect, the chooser table never changes (R155). -/
def Obligations.ChooserStability : Prop :=
  ∀ (es : List (Addr × Direction)) (s : State) (st : TournamentState),
    s.strategy = .tournament st → s.inputs = branchInputs es →
    alwaysAgree s.build s.cfgG.toNat s.cfgL.toNat s.cfgP.toNat st es →
    ∃ t st', Sys2Proof.core.run (2 * es.length) s = .next t ∧ t.strategy = .tournament st' ∧ st'.cht = st.cht

/-! ### Mode CUSTOM -/

/-- The address hash: the product modulo `PERC_S`, truncated first where `HASH_WRAP` says so; the exact product and a
32-bit one agree where the product is below `2^32` or `PERC_S` divides `2^32` (R170). -/
def Obligations.HashFormula : Prop :=
  ∀ (b : BuildParams) (pc : Addr), 1 ≤ b.percS →
    (b.hashWrap = none → percHash b pc = pc.toNat * b.percKMult % b.percS) ∧
    (∀ n, b.hashWrap = some n → percHash b pc = pc.toNat * b.percKMult % 2 ^ n % b.percS) ∧
    percHash b pc < b.percS ∧
    (pc.toNat * b.percKMult < 2 ^ 32 ∨ b.percS ∣ 2 ^ 32 →
      percHash { b with hashWrap := none } pc = percHash { b with hashWrap := some 32 } pc)

/-- The saturating weight update: clamped at the two ends of the signed range, never outside it (R171). -/
def Obligations.WeightSaturation : Prop :=
  ∀ (k : Nat) (w : Int), -(2 ^ (k - 1)) ≤ w → w ≤ 2 ^ (k - 1) - 1 →
    wsatInc k w = min (w + 1) (2 ^ (k - 1) - 1) ∧ wsatDec k w = max (w - 1) (-(2 ^ (k - 1))) ∧
    (-(2 ^ (k - 1)) ≤ wsatInc k w ∧ wsatInc k w ≤ 2 ^ (k - 1) - 1) ∧
    (-(2 ^ (k - 1)) ≤ wsatDec k w ∧ wsatDec k w ≤ 2 ^ (k - 1) - 1)

/-- The MAC sum: the bias plus each history weight, negated where its history bit is 0 (R172). -/
def Obligations.MacSumFormula : Prop :=
  ∀ (row : List Int) (phist h : Nat), row.length = h + 1 →
    percOut row phist = row.getD 0 0 +
      ∑ i ∈ Finset.Icc 1 h, (if phist / 2 ^ (i - 1) % 2 = 1 then row.getD i 0 else -row.getD i 0)

/-- The accumulator's bounds, that both are reached, and that `ACCW` bits hold every sum (R179). -/
def Obligations.AccumulatorBounds : Prop :=
  ∀ b : BuildParams, b.Legal →
    (∀ (row : List Int) (phist : Nat), RowOk b row →
      -((b.percH + 1 : Int) * 2 ^ (b.percK - 1)) ≤ percOut row phist ∧
      percOut row phist ≤ (b.percH + 1 : Int) * 2 ^ (b.percK - 1) - 1 ∧
      -(2 ^ (b.percK + Nat.clog 2 (b.percH + 1) - 1)) ≤ percOut row phist ∧
      percOut row phist ≤ 2 ^ (b.percK + Nat.clog 2 (b.percH + 1) - 1) - 1) ∧
    (∃ row phist, RowOk b row ∧ phist < 2 ^ b.percH ∧
      percOut row phist = -((b.percH + 1 : Int) * 2 ^ (b.percK - 1))) ∧
    ∃ row phist, RowOk b row ∧ phist < 2 ^ b.percH ∧
      percOut row phist = (b.percH + 1 : Int) * 2 ^ (b.percK - 1) - 1

/-- PREDICT in mode CUSTOM: Taken iff the sum is at least 0; the sum, the prediction and `abs(out) < PERC_THETA` are
recorded, all three; weights, history and everything else stay (R173). -/
def Obligations.PredictCustomRecordsTheSum : Prop :=
  ∀ (s : State) (st : CustomState) (pc : Addr) (out : Int) (pred : Direction), s.strategy = .custom st →
    out = percOut (tableRead (zeroRow s.build.percH) st.pw (percHash s.build pc)) st.phist →
    pred = (if 0 ≤ out then .taken else .notTaken) →
    exec (.predictCustom pc) s = .next { s with
      strategy := .custom { st with scratch := some ⟨out, pred, decide (|out| < (s.build.percTheta : Int))⟩ },
      rsp := some ⟨.ok, bitOf pred⟩, responses := s.responses ++ [⟨.ok, bitOf pred⟩] }

/-- Repeating a PREDICT in mode CUSTOM with the same address rewrites the same values and answers the same (R65). -/
def Obligations.PredictCustomIsIdempotent : Prop :=
  ∀ (s t : State) (pc : Addr), exec (.predictCustom pc) s = .next t →
    ∃ u, exec (.predictCustom pc) t = .next u ∧ u.strategy = t.strategy ∧ u.rsp = t.rsp

/-- TRAIN in mode CUSTOM after a PREDICT: every weight of the row of this command's address moves, saturating, when the
recorded prediction was wrong or needs-train was set, with the history before the command; else no weight does; the
history always shifts; the scratch state and everything else stay (R174, R175). The input the bias goes with is 1. -/
def Obligations.TrainCustomAdjustsTheRow : Prop :=
  ∀ (s : State) (st : CustomState) (sc : Scratch) (pc : Addr) (o : Direction) (slot : Nat),
    s.strategy = .custom st → st.scratch = some sc → slot = percHash s.build pc →
    ∃ t st', exec (.trainCustom pc o) s = .next t ∧ OnlyElementsChange s t ⟨.ok, 0#1⟩ ∧ t.draws = s.draws ∧
      t.strategy = .custom st' ∧ st'.scratch = some sc ∧
      st'.phist = (2 * st.phist + bit o) % 2 ^ s.build.percH ∧
      (∀ i, i ≠ slot →
        tableRead (zeroRow s.build.percH) st'.pw i = tableRead (zeroRow s.build.percH) st.pw i) ∧
      (¬(sc.pred ≠ o ∨ sc.need = true) →
        tableRead (zeroRow s.build.percH) st'.pw slot = tableRead (zeroRow s.build.percH) st.pw slot) ∧
      ((sc.pred ≠ o ∨ sc.need = true) →
        ∀ i, (tableRead (zeroRow s.build.percH) st'.pw slot)[i]? =
          ((tableRead (zeroRow s.build.percH) st.pw slot)[i]?).map (fun w =>
            if bit o = (if i = 0 then 1 else st.phist / 2 ^ (i - 1) % 2)
            then min (w + 1) (2 ^ (s.build.percK - 1) - 1)
            else max (w - 1) (-(2 ^ (s.build.percK - 1)))))

/-- TRAIN in mode CUSTOM with no PREDICT since INIT: it completes for every value of the two free bits it draws; the
history shifts, the scratch state still holds no value, no other row changes, and the row of this command's address is
as it was or has every weight moved (93 U3, R174; log entry 8). -/
def Obligations.TrainCustomWithUnwrittenScratch : Prop :=
  ∀ (s : State) (st : CustomState) (pc : Addr) (o : Direction) (slot : Nat),
    s.strategy = .custom st → st.scratch = none → slot = percHash s.build pc →
    ∃ t st', exec (.trainCustom pc o) s = .next t ∧ OnlyElementsChange s t ⟨.ok, 0#1⟩ ∧ t.draws = s.draws + 1 ∧
      t.strategy = .custom st' ∧ st'.scratch = none ∧
      st'.phist = (2 * st.phist + bit o) % 2 ^ s.build.percH ∧
      (∀ i, i ≠ slot →
        tableRead (zeroRow s.build.percH) st'.pw i = tableRead (zeroRow s.build.percH) st.pw i) ∧
      (tableRead (zeroRow s.build.percH) st'.pw slot = tableRead (zeroRow s.build.percH) st.pw slot ∨
        ∀ i, (tableRead (zeroRow s.build.percH) st'.pw slot)[i]? =
          ((tableRead (zeroRow s.build.percH) st.pw slot)[i]?).map (fun w =>
            if bit o = (if i = 0 then 1 else st.phist / 2 ^ (i - 1) % 2)
            then min (w + 1) (2 ^ (s.build.percK - 1) - 1)
            else max (w - 1) (-(2 ^ (s.build.percK - 1)))))

/-- When the recorded prediction is correct and needs-train is not set, TRAIN writes no weight of any perceptron and
still shifts the history (R176). -/
def Obligations.ConfidentCorrectTrainsNothing : Prop :=
  ∀ (s : State) (st : CustomState) (sc : Scratch) (pc : Addr), s.strategy = .custom st → st.scratch = some sc →
    sc.need = false →
    exec (.trainCustom pc sc.pred) s = .next { s with
      strategy := .custom { st with phist := (2 * st.phist + bit sc.pred) % 2 ^ s.build.percH },
      rsp := some ⟨.ok, 0#1⟩, responses := s.responses ++ [⟨.ok, 0#1⟩] }

/-- When training is needed every history weight of the row moves by exactly one, up where the outcome equals its
history bit and down elsewhere, and by nothing at the bound it would cross; the bias by the outcome; no other row
changes (R177). -/
def Obligations.WeightReinforcement : Prop :=
  ∀ (s : State) (st : CustomState) (sc : Scratch) (pc : Addr) (o : Direction) (row : List Int),
    s.strategy = .custom st → st.scratch = some sc → (sc.pred ≠ o ∨ sc.need = true) →
    row = tableRead (zeroRow s.build.percH) st.pw (percHash s.build pc) → RowOk s.build row →
    ∃ t st' row', exec (.trainCustom pc o) s = .next t ∧ t.strategy = .custom st' ∧
      row' = tableRead (zeroRow s.build.percH) st'.pw (percHash s.build pc) ∧
      row'.length = s.build.percH + 1 ∧
      row'.getD 0 0 - row.getD 0 0 =
        (if o = .taken then (if row.getD 0 0 < weightMax s.build.percK then 1 else 0)
        else (if weightMin s.build.percK < row.getD 0 0 then -1 else 0)) ∧
      (∀ i, 1 ≤ i → i ≤ s.build.percH →
        row'.getD i 0 - row.getD i 0 =
          (if bit o = st.phist / 2 ^ (i - 1) % 2 then (if row.getD i 0 < weightMax s.build.percK then 1 else 0)
          else (if weightMin s.build.percK < row.getD i 0 then -1 else 0))) ∧
      ∀ i, i ≠ percHash s.build pc →
        tableRead (zeroRow s.build.percH) st'.pw i = tableRead (zeroRow s.build.percH) st.pw i

/-- Two addresses with the same slot are one address to the perceptron: from the same state PREDICT and TRAIN of either
end the same. All addresses share the one PHIST, whatever their slots (R178). -/
def Obligations.SlotSharing : Prop :=
  ∀ (s : State) (pc pc' : Addr) (o : Direction),
    (percHash s.build pc = percHash s.build pc' →
      exec (.predictCustom pc) s = exec (.predictCustom pc') s ∧
      exec (.trainCustom pc o) s = exec (.trainCustom pc' o) s) ∧
    ∀ t t' st st', exec (.trainCustom pc o) s = .next t → exec (.trainCustom pc' o) s = .next t' →
      t.strategy = .custom st → t'.strategy = .custom st' → st.phist = st'.phist

/-! ### Whole runs -/

/-- Over any branch sequence from a zero history, in mode GSHARE or TOURNAMENT, GHR holds exactly the last `G`
outcomes of all branches, most recent in bit 0 (R26, R112). -/
def Obligations.GlobalHistoryHoldsTheLastOutcomes : Prop :=
  ∀ (es : List (Addr × Direction)) (s : State),
    globalHistory s.strategy = some 0 → s.inputs = branchInputs es →
    ∃ t, Sys2Proof.core.run (2 * es.length) s = .next t ∧
      globalHistory t.strategy = some (lastOutcomes s.cfgG.toNat (es.map (fun e => e.2)))

/-- Over any branch sequence from zero histories, every entry of LHT holds exactly the last `L` outcomes of the
branches whose address has that index in its low `P` bits (R29, R112). -/
def Obligations.LocalHistoriesHoldTheLastOutcomes : Prop :=
  ∀ (es : List (Addr × Direction)) (s : State) (st : TournamentState),
    s.strategy = .tournament st → (∀ i, tableRead 0 st.lht i = 0) → s.inputs = branchInputs es →
    ∃ t st', Sys2Proof.core.run (2 * es.length) s = .next t ∧ t.strategy = .tournament st' ∧
      ∀ i, tableRead 0 st'.lht i = lastOutcomes s.cfgL.toNat
        ((es.filter (fun e => e.1.toNat % 2 ^ s.cfgP.toNat == i)).map (fun e => e.2))

/-- Over any branch sequence from a zero history, PHIST holds exactly the last `PERC_H` outcomes of all branches,
whether or not weights were adjusted (R32, R112, R175). -/
def Obligations.PerceptronHistoryHoldsTheLastOutcomes : Prop :=
  ∀ (es : List (Addr × Direction)) (s : State) (st : CustomState),
    s.strategy = .custom st → st.phist = 0 → s.inputs = branchInputs es →
    ∃ t st', Sys2Proof.core.run (2 * es.length) s = .next t ∧ t.strategy = .custom st' ∧
      st'.phist = lastOutcomes s.build.percH (es.map (fun e => e.2))

/-- Under the caller contract no TRAIN ever reads scratch state that holds no value: from every state, with no TRAIN
owed and inputs that obey the contract, no run makes a free draw (R213, R233, 93 U3). That `rst` starts the contract
over is the model's choice (log entry 13). -/
def Obligations.ContractRunsNeverDraw : Prop :=
  ∀ (n : Nat) (ph : Phase) (s t : State), (ph = .beforeInit ∨ ph = .ready) →
    obeysContract ph s.inputs = true → Sys2Proof.core.run n s = .next t → t.draws = s.draws

/-- Under the caller contract a run is a function of the unit's state and the inputs alone: two runs that differ only
in which free values the model would draw are the same at every step (R143, 93 U3). That `rst` starts the contract over
is the model's choice (log entry 13). -/
def Obligations.ContractRunsIgnoreFreeValues : Prop :=
  ∀ (n d : Nat) (ph : Phase) (s t : State), (ph = .beforeInit ∨ ph = .ready) →
    obeysContract ph s.inputs = true → Sys2Proof.core.run n s = .next t →
    Sys2Proof.core.run n { s with draws := d } = .next { t with draws := d }

/-- The contract invariant holds at power-on, where MODE is NONE, `CFG_FAULT` 0 and every width 0, whatever inputs that
obey the contract the driver will present (R230, R233). That `rst` starts the contract over is the model's choice (log
entry 13). -/
def Obligations.ContractInvariantAtReset : Prop :=
  ∀ is : List Input, obeysContract .beforeInit is = true → ContractInv .beforeInit { State.reset with inputs := is }

/-- Every step keeps the contract invariant, in the phase the input leads to, and makes no free draw: until the first
INIT the unit keeps its power-on values, and `rst` brings it back to them (R230); after a PREDICT in mode CUSTOM the
scratch state holds a value until its TRAIN has read it (R33, R233, 93 U3). That `rst` starts the
contract over is the model's choice (log entry 13). -/
def Obligations.EveryStepKeepsTheContractInvariant : Prop :=
  ∀ (ph : Phase) (s t : State), ContractInv ph s → step s = .next t →
    t.draws = s.draws ∧
    match s.inputs with
    | [] => ContractInv ph t
    | .rst :: _ => ContractInv .beforeInit t
    | .command w :: _ =>
      match decodeCommand w with
      | none => ContractInv ph t
      | some c => ∃ ph', contractNext ph c = some ph' ∧ ContractInv ph' t
end

