-- ==== Sys2Proof/Laws/State.lean ====
section
/-! SUPPORT. One lemma per field for each operation that updates the state, so that no proof unfolds a record
update. -/

namespace Sys2Proof.Machine

@[simp] theorem respond_build (st : Status) (d : BitVec 1) (s : State) : (respond st d s).build = s.build := rfl
@[simp] theorem respond_cfgFault (st : Status) (d : BitVec 1) (s : State) : (respond st d s).cfgFault = s.cfgFault := rfl
@[simp] theorem respond_cfgG (st : Status) (d : BitVec 1) (s : State) : (respond st d s).cfgG = s.cfgG := rfl
@[simp] theorem respond_cfgL (st : Status) (d : BitVec 1) (s : State) : (respond st d s).cfgL = s.cfgL := rfl
@[simp] theorem respond_cfgP (st : Status) (d : BitVec 1) (s : State) : (respond st d s).cfgP = s.cfgP := rfl
@[simp] theorem respond_strategy (st : Status) (d : BitVec 1) (s : State) : (respond st d s).strategy = s.strategy := rfl
@[simp] theorem respond_rsp (st : Status) (d : BitVec 1) (s : State) : (respond st d s).rsp = some ⟨st, d⟩ := rfl
@[simp] theorem respond_responses (st : Status) (d : BitVec 1) (s : State) : (respond st d s).responses = s.responses ++ [⟨st, d⟩] := rfl
@[simp] theorem respond_inputs (st : Status) (d : BitVec 1) (s : State) : (respond st d s).inputs = s.inputs := rfl
@[simp] theorem respond_draws (st : Status) (d : BitVec 1) (s : State) : (respond st d s).draws = s.draws := rfl

@[simp] theorem latchWidths_build (g l p : BitVec 6) (s : State) : (latchWidths g l p s).build = s.build := rfl
@[simp] theorem latchWidths_cfgFault (g l p : BitVec 6) (s : State) : (latchWidths g l p s).cfgFault = s.cfgFault := rfl
@[simp] theorem latchWidths_cfgG (g l p : BitVec 6) (s : State) : (latchWidths g l p s).cfgG = g := rfl
@[simp] theorem latchWidths_cfgL (g l p : BitVec 6) (s : State) : (latchWidths g l p s).cfgL = l := rfl
@[simp] theorem latchWidths_cfgP (g l p : BitVec 6) (s : State) : (latchWidths g l p s).cfgP = p := rfl
@[simp] theorem latchWidths_strategy (g l p : BitVec 6) (s : State) : (latchWidths g l p s).strategy = s.strategy := rfl
@[simp] theorem latchWidths_rsp (g l p : BitVec 6) (s : State) : (latchWidths g l p s).rsp = s.rsp := rfl
@[simp] theorem latchWidths_responses (g l p : BitVec 6) (s : State) : (latchWidths g l p s).responses = s.responses := rfl
@[simp] theorem latchWidths_inputs (g l p : BitVec 6) (s : State) : (latchWidths g l p s).inputs = s.inputs := rfl
@[simp] theorem latchWidths_draws (g l p : BitVec 6) (s : State) : (latchWidths g l p s).draws = s.draws := rfl

@[simp] theorem enterStrategy_build (st : Strategy) (s : State) : (enterStrategy st s).build = s.build := rfl
@[simp] theorem enterStrategy_cfgFault (st : Strategy) (s : State) : (enterStrategy st s).cfgFault = false := rfl
@[simp] theorem enterStrategy_cfgG (st : Strategy) (s : State) : (enterStrategy st s).cfgG = s.cfgG := rfl
@[simp] theorem enterStrategy_cfgL (st : Strategy) (s : State) : (enterStrategy st s).cfgL = s.cfgL := rfl
@[simp] theorem enterStrategy_cfgP (st : Strategy) (s : State) : (enterStrategy st s).cfgP = s.cfgP := rfl
@[simp] theorem enterStrategy_strategy (st : Strategy) (s : State) : (enterStrategy st s).strategy = st := rfl
@[simp] theorem enterStrategy_rsp (st : Strategy) (s : State) : (enterStrategy st s).rsp = some ⟨.ok, 0#1⟩ := rfl
@[simp] theorem enterStrategy_responses (st : Strategy) (s : State) : (enterStrategy st s).responses = s.responses ++ [⟨.ok, 0#1⟩] := rfl
@[simp] theorem enterStrategy_inputs (st : Strategy) (s : State) : (enterStrategy st s).inputs = s.inputs := rfl
@[simp] theorem enterStrategy_draws (st : Strategy) (s : State) : (enterStrategy st s).draws = s.draws := rfl

@[simp] theorem takeConfigFault_build (s : State) : (takeConfigFault s).build = s.build := rfl
@[simp] theorem takeConfigFault_cfgFault (s : State) : (takeConfigFault s).cfgFault = true := rfl
@[simp] theorem takeConfigFault_cfgG (s : State) : (takeConfigFault s).cfgG = s.cfgG := rfl
@[simp] theorem takeConfigFault_cfgL (s : State) : (takeConfigFault s).cfgL = s.cfgL := rfl
@[simp] theorem takeConfigFault_cfgP (s : State) : (takeConfigFault s).cfgP = s.cfgP := rfl
@[simp] theorem takeConfigFault_strategy (s : State) : (takeConfigFault s).strategy = .none := rfl
@[simp] theorem takeConfigFault_rsp (s : State) : (takeConfigFault s).rsp = some ⟨.cfgFault, 0#1⟩ := rfl
@[simp] theorem takeConfigFault_responses (s : State) : (takeConfigFault s).responses = s.responses ++ [⟨.cfgFault, 0#1⟩] := rfl
@[simp] theorem takeConfigFault_inputs (s : State) : (takeConfigFault s).inputs = s.inputs := rfl
@[simp] theorem takeConfigFault_draws (s : State) : (takeConfigFault s).draws = s.draws := rfl

@[simp] theorem takeIllegalCommand_build (s : State) : (takeIllegalCommand s).build = s.build := rfl
@[simp] theorem takeIllegalCommand_cfgFault (s : State) : (takeIllegalCommand s).cfgFault = s.cfgFault := rfl
@[simp] theorem takeIllegalCommand_cfgG (s : State) : (takeIllegalCommand s).cfgG = s.cfgG := rfl
@[simp] theorem takeIllegalCommand_cfgL (s : State) : (takeIllegalCommand s).cfgL = s.cfgL := rfl
@[simp] theorem takeIllegalCommand_cfgP (s : State) : (takeIllegalCommand s).cfgP = s.cfgP := rfl
@[simp] theorem takeIllegalCommand_strategy (s : State) : (takeIllegalCommand s).strategy = s.strategy := rfl
@[simp] theorem takeIllegalCommand_rsp (s : State) : (takeIllegalCommand s).rsp = some ⟨.illegal, 0#1⟩ := rfl
@[simp] theorem takeIllegalCommand_responses (s : State) : (takeIllegalCommand s).responses = s.responses ++ [⟨.illegal, 0#1⟩] := rfl
@[simp] theorem takeIllegalCommand_inputs (s : State) : (takeIllegalCommand s).inputs = s.inputs := rfl
@[simp] theorem takeIllegalCommand_draws (s : State) : (takeIllegalCommand s).draws = s.draws := rfl

@[simp] theorem powerOn_build (s : State) : (powerOn s).build = s.build := rfl
@[simp] theorem powerOn_cfgFault (s : State) : (powerOn s).cfgFault = false := rfl
@[simp] theorem powerOn_cfgG (s : State) : (powerOn s).cfgG = 0#6 := rfl
@[simp] theorem powerOn_cfgL (s : State) : (powerOn s).cfgL = 0#6 := rfl
@[simp] theorem powerOn_cfgP (s : State) : (powerOn s).cfgP = 0#6 := rfl
@[simp] theorem powerOn_strategy (s : State) : (powerOn s).strategy = .none := rfl
@[simp] theorem powerOn_rsp (s : State) : (powerOn s).rsp = Option.none := rfl
@[simp] theorem powerOn_responses (s : State) : (powerOn s).responses = s.responses := rfl
@[simp] theorem powerOn_inputs (s : State) : (powerOn s).inputs = s.inputs := rfl
@[simp] theorem powerOn_draws (s : State) : (powerOn s).draws = s.draws := rfl

@[simp] theorem answer_build (d : BitVec 1) (s : State) : (answer d s).build = s.build := rfl
@[simp] theorem answer_cfgFault (d : BitVec 1) (s : State) : (answer d s).cfgFault = s.cfgFault := rfl
@[simp] theorem answer_cfgG (d : BitVec 1) (s : State) : (answer d s).cfgG = s.cfgG := rfl
@[simp] theorem answer_cfgL (d : BitVec 1) (s : State) : (answer d s).cfgL = s.cfgL := rfl
@[simp] theorem answer_cfgP (d : BitVec 1) (s : State) : (answer d s).cfgP = s.cfgP := rfl
@[simp] theorem answer_strategy (d : BitVec 1) (s : State) : (answer d s).strategy = s.strategy := rfl
@[simp] theorem answer_rsp (d : BitVec 1) (s : State) : (answer d s).rsp = some ⟨.ok, d⟩ := rfl
@[simp] theorem answer_responses (d : BitVec 1) (s : State) : (answer d s).responses = s.responses ++ [⟨.ok, d⟩] := rfl
@[simp] theorem answer_inputs (d : BitVec 1) (s : State) : (answer d s).inputs = s.inputs := rfl
@[simp] theorem answer_draws (d : BitVec 1) (s : State) : (answer d s).draws = s.draws := rfl

@[simp] theorem answerWith_build (d : BitVec 1) (st : Strategy) (s : State) : (answerWith d st s).build = s.build := rfl
@[simp] theorem answerWith_cfgFault (d : BitVec 1) (st : Strategy) (s : State) : (answerWith d st s).cfgFault = s.cfgFault := rfl
@[simp] theorem answerWith_cfgG (d : BitVec 1) (st : Strategy) (s : State) : (answerWith d st s).cfgG = s.cfgG := rfl
@[simp] theorem answerWith_cfgL (d : BitVec 1) (st : Strategy) (s : State) : (answerWith d st s).cfgL = s.cfgL := rfl
@[simp] theorem answerWith_cfgP (d : BitVec 1) (st : Strategy) (s : State) : (answerWith d st s).cfgP = s.cfgP := rfl
@[simp] theorem answerWith_strategy (d : BitVec 1) (st : Strategy) (s : State) : (answerWith d st s).strategy = st := rfl
@[simp] theorem answerWith_rsp (d : BitVec 1) (st : Strategy) (s : State) : (answerWith d st s).rsp = some ⟨.ok, d⟩ := rfl
@[simp] theorem answerWith_responses (d : BitVec 1) (st : Strategy) (s : State) : (answerWith d st s).responses = s.responses ++ [⟨.ok, d⟩] := rfl
@[simp] theorem answerWith_inputs (d : BitVec 1) (st : Strategy) (s : State) : (answerWith d st s).inputs = s.inputs := rfl
@[simp] theorem answerWith_draws (d : BitVec 1) (st : Strategy) (s : State) : (answerWith d st s).draws = s.draws := rfl

@[simp] theorem presentCommand_build (w : CmdWord) (s : State) : (presentCommand w s).build = s.build := rfl
@[simp] theorem presentCommand_cfgFault (w : CmdWord) (s : State) : (presentCommand w s).cfgFault = s.cfgFault := rfl
@[simp] theorem presentCommand_cfgG (w : CmdWord) (s : State) : (presentCommand w s).cfgG = s.cfgG := rfl
@[simp] theorem presentCommand_cfgL (w : CmdWord) (s : State) : (presentCommand w s).cfgL = s.cfgL := rfl
@[simp] theorem presentCommand_cfgP (w : CmdWord) (s : State) : (presentCommand w s).cfgP = s.cfgP := rfl
@[simp] theorem presentCommand_strategy (w : CmdWord) (s : State) : (presentCommand w s).strategy = s.strategy := rfl
@[simp] theorem presentCommand_rsp (w : CmdWord) (s : State) : (presentCommand w s).rsp = s.rsp := rfl
@[simp] theorem presentCommand_responses (w : CmdWord) (s : State) : (presentCommand w s).responses = s.responses := rfl
@[simp] theorem presentCommand_inputs (w : CmdWord) (s : State) : (presentCommand w s).inputs = .command w :: s.inputs := rfl
@[simp] theorem presentCommand_draws (w : CmdWord) (s : State) : (presentCommand w s).draws = s.draws := rfl

/-- With nothing presented there is nothing to take. -/
@[simp] theorem takeInput_nil (s : State) (h : s.inputs = []) : takeInput s = Option.none := by
  simp [takeInput, h]

/-- The next input is taken off the list, and nothing else of the state changes. -/
@[simp] theorem takeInput_cons (s : State) (i : Input) (rest : List Input) (h : s.inputs = i :: rest) :
    takeInput s = some (i, { s with inputs := rest }) := by
  simp [takeInput, h]

/-- Taking an input answers an input and a state: the head of the list, and the state without it. -/
theorem takeInput_spec {s t : State} {i : Input} (h : takeInput s = some (i, t)) :
    s.inputs = i :: t.inputs ∧ t = { s with inputs := t.inputs } := by
  unfold takeInput at h
  split at h
  · cases h
  · next i' rest hi => cases h; exact ⟨hi, rfl⟩

end Sys2Proof.Machine
end

