-- ==== Sys2Proof/Laws/Exec.lean ====
section
/-! SUPPORT. What a meaning can do and what a step can do, said once: inversion lemmas that later proofs cite instead of
unfolding `exec` and `step`. -/

namespace Sys2Proof.Machine

variable {s t : State}

theorem execInit_spec {v : BitVec 8} {g l p : BitVec 6} (h : execInit v g l p s = .next t) :
    (configValid s.build v g l p = true ∧ t = enterStrategy (freshStrategy v) (latchWidths g l p s)) ∨
    (configValid s.build v g l p = false ∧ t = takeConfigFault (latchWidths g l p s)) := by
  unfold execInit at h
  split at h
  · next hv => cases h; exact .inl ⟨hv, rfl⟩
  · next hv => cases h; exact .inr ⟨by simpa using hv, rfl⟩

theorem execPredictNone_spec {pc : Addr} (h : execPredictNone pc s = .next t) :
    s.strategy = .none ∧ t = answer (bitOf .notTaken) s := by
  unfold execPredictNone at h
  split at h
  · next hs => cases h; exact ⟨hs, rfl⟩
  · cases h

theorem execTrainNone_spec {pc : Addr} {o : Direction} (h : execTrainNone pc o s = .next t) :
    s.strategy = .none ∧ t = answer 0#1 s := by
  unfold execTrainNone at h
  split at h
  · next hs => cases h; exact ⟨hs, rfl⟩
  · cases h

theorem execPredictStatic_spec {pc : Addr} (h : execPredictStatic pc s = .next t) :
    s.strategy = .static ∧ t = answer (bitOf .taken) s := by
  unfold execPredictStatic at h
  split at h
  · next hs => cases h; exact ⟨hs, rfl⟩
  · cases h

theorem execTrainStatic_spec {pc : Addr} {o : Direction} (h : execTrainStatic pc o s = .next t) :
    s.strategy = .static ∧ t = answer 0#1 s := by
  unfold execTrainStatic at h
  split at h
  · next hs => cases h; exact ⟨hs, rfl⟩
  · cases h

theorem execPredictGshare_spec {pc : Addr} (h : execPredictGshare pc s = .next t) :
    ∃ st, s.strategy = .gshare st ∧ t = answer (bitOf (gsharePrediction s.cfgG.toNat st pc)) s := by
  unfold execPredictGshare at h
  split at h
  · next st hs => cases h; exact ⟨st, hs, rfl⟩
  · cases h

theorem execTrainGshare_spec {pc : Addr} {o : Direction} (h : execTrainGshare pc o s = .next t) :
    ∃ st, s.strategy = .gshare st ∧ t = answerWith 0#1 (.gshare (gshareTrained s.cfgG.toNat st pc o)) s := by
  unfold execTrainGshare at h
  split at h
  · next st hs => cases h; exact ⟨st, hs, rfl⟩
  · cases h

theorem execPredictTournament_spec {pc : Addr} (h : execPredictTournament pc s = .next t) :
    ∃ st, s.strategy = .tournament st ∧
      t = answer (bitOf (tournamentPrediction s.build s.cfgG.toNat s.cfgL.toNat s.cfgP.toNat st pc)) s := by
  unfold execPredictTournament at h
  split at h
  · next st hs => cases h; exact ⟨st, hs, rfl⟩
  · cases h

theorem execTrainTournament_spec {pc : Addr} {o : Direction} (h : execTrainTournament pc o s = .next t) :
    ∃ st, s.strategy = .tournament st ∧
      t = answerWith 0#1
        (.tournament (tournamentTrained s.build s.cfgG.toNat s.cfgL.toNat s.cfgP.toNat st pc o)) s := by
  unfold execTrainTournament at h
  split at h
  · next st hs => cases h; exact ⟨st, hs, rfl⟩
  · cases h

theorem execPredictCustom_spec {pc : Addr} (h : execPredictCustom pc s = .next t) :
    ∃ st, s.strategy = .custom st ∧
      t = answerWith (bitOf (customScratch s.build st pc).pred) (.custom (customPredicted s.build st pc)) s := by
  unfold execPredictCustom at h
  split at h
  · next st hs => cases h; exact ⟨st, hs, rfl⟩
  · cases h

theorem execTrainCustom_spec {pc : Addr} {o : Direction} (h : execTrainCustom pc o s = .next t) :
    ∃ st, s.strategy = .custom st ∧
      t = answerWith 0#1
        (.custom (customTrained s.build (scratchPred s.draws st.scratch) (scratchNeed s.draws st.scratch) st pc o))
        { s with draws := drawsAfter s.draws st.scratch } := by
  unfold execTrainCustom at h
  split at h
  · next st hs => cases h; exact ⟨st, hs, rfl⟩
  · cases h

/-- Everything a step can do: wait, reset, answer an illegal word, or run the row MODE selects. -/
theorem step_cases (s : State) :
    (s.inputs = [] ∧ step s = .next s) ∨
    (∃ rest, s.inputs = .rst :: rest ∧ step s = .next (powerOn { s with inputs := rest })) ∨
    (∃ w rest, s.inputs = .command w :: rest ∧ decodeCommand w = Option.none ∧
      step s = .next (takeIllegalCommand { s with inputs := rest })) ∨
    ∃ w rest c, s.inputs = .command w :: rest ∧ decodeCommand w = some c ∧
      step s = exec (selectRow (mode s) c) { s with inputs := rest } := by
  cases hi : s.inputs with
  | nil => exact .inl ⟨rfl, by simp [step, takeInput_nil s hi]⟩
  | cons i rest =>
    cases i with
    | rst => exact .inr (.inl ⟨rest, rfl, by simp [step, takeInput_cons s _ rest hi]⟩)
    | command w =>
      cases hc : decodeCommand w with
      | none =>
        exact .inr (.inr (.inl ⟨w, rest, rfl, hc, by simp [step, takeInput_cons s _ rest hi, decode, hc]⟩))
      | some c =>
        exact .inr (.inr (.inr ⟨w, rest, c, rfl, hc, by
          simp [step, takeInput_cons s _ rest hi, decode, hc, mode]⟩))

end Sys2Proof.Machine
end

