-- ==== Sys2Proof/Laws/Tables.lean ====
section
/-! SUPPORT. The basic laws of the tables (20_memory R61): a read after a write gives the value written and every other
entry is as before, and a write keeps the canonical form. -/

namespace Sys2Proof.Machine

variable {α : Type}

@[simp] theorem tableRead_nil (d : α) (i : Nat) : tableRead d ([] : Table α) i = d := rfl

@[simp] theorem tableRead_cons (d : α) (j : Nat) (u : α) (t : Table α) (i : Nat) :
    tableRead d ((j, u) :: t) i = if i = j then u else tableRead d t i := rfl

/-- The table INIT makes is canonical. -/
theorem tableWf_nil (size : Nat) (d : α) : Table.wf size d ([] : Table α) := by
  simp [Table.wf]

theorem tableRead_erase (d : α) (t : Table α) (i k : Nat) :
    tableRead d (tableErase t i) k = if k = i then d else tableRead d t k := by
  induction t with
  | nil => simp [tableErase]
  | cons e t ih =>
    obtain ⟨j, u⟩ := e
    by_cases hj : j = i
    · have : tableErase ((j, u) :: t) i = tableErase t i := by simp [tableErase, hj]
      rw [this, ih, tableRead_cons]
      split <;> simp_all
    · have : tableErase ((j, u) :: t) i = (j, u) :: tableErase t i := by simp [tableErase, hj]
      rw [this, tableRead_cons, tableRead_cons, ih]
      split <;> simp_all

theorem tableRead_insert (d v : α) (t : Table α) (i k : Nat) (h : ∀ e ∈ t, e.1 ≠ i) :
    tableRead d (tableInsert i v t) k = if k = i then v else tableRead d t k := by
  induction t with
  | nil => simp [tableInsert]
  | cons e t ih =>
    obtain ⟨j, u⟩ := e
    have hj : j ≠ i := h (j, u) (by simp)
    have ht := ih (fun e he => h e (by simp [he]))
    simp only [tableInsert]
    split
    · simp
    · rw [tableRead_cons, tableRead_cons, ht]
      split <;> simp_all

theorem fst_ne_of_mem_erase {t : Table α} {i : Nat} {e : Nat × α} (h : e ∈ tableErase t i) : e.1 ≠ i := by
  simpa using (List.mem_filter.1 h).2

/-- A read after a write: the value written at the index written, and every other entry as before (R61). -/
@[simp] theorem tableRead_write [DecidableEq α] (d v : α) (t : Table α) (i k : Nat) :
    tableRead d (tableWrite d t i v) k = if k = i then v else tableRead d t k := by
  unfold tableWrite
  split
  · rw [tableRead_erase]; split <;> simp_all
  · rw [tableRead_insert d v _ i k (fun e he => fst_ne_of_mem_erase he), tableRead_erase]
    split <;> simp_all

/-- A bump of a counter table: the entry bumped, every other entry as before (R113, R61). -/
@[simp] theorem tableRead_bump (d : Counter) (t : Table Counter) (i k : Nat) (o : Direction) :
    tableRead d (tableBump d t i o) k = if k = i then bump (tableRead d t i) o else tableRead d t k := by
  simp [tableBump]

theorem mem_tableInsert {t : Table α} {i : Nat} {v : α} {e : Nat × α} :
    e ∈ tableInsert i v t ↔ e = (i, v) ∨ e ∈ t := by
  induction t with
  | nil => simp [tableInsert]
  | cons f t ih =>
    obtain ⟨j, u⟩ := f
    simp only [tableInsert]
    split
    · simp
    · rw [List.mem_cons, List.mem_cons, ih]; tauto

theorem pairwise_tableInsert {t : Table α} {i : Nat} {v : α} (h : t.Pairwise (fun e f => e.1 < f.1))
    (hi : ∀ e ∈ t, e.1 ≠ i) : (tableInsert i v t).Pairwise (fun e f => e.1 < f.1) := by
  induction t with
  | nil => simp [tableInsert]
  | cons f t ih =>
    obtain ⟨j, u⟩ := f
    have hj : j ≠ i := hi (j, u) (by simp)
    rw [List.pairwise_cons] at h
    simp only [tableInsert]
    split
    · next hlt =>
      rw [List.pairwise_cons, List.pairwise_cons]
      refine ⟨fun e he => ?_, h⟩
      rcases List.mem_cons.1 he with rfl | he
      · exact hlt
      · exact hlt.trans (h.1 e he)
    · rw [List.pairwise_cons]
      refine ⟨fun e he => ?_, ih h.2 (fun e he => hi e (by simp [he]))⟩
      rcases mem_tableInsert.1 he with rfl | he
      · simp only; omega
      · exact h.1 e he

/-- Every entry of a written table is the entry written or an entry of the old table. -/
theorem mem_tableWrite [DecidableEq α] {d v : α} {t : Table α} {i : Nat} {e : Nat × α}
    (h : e ∈ tableWrite d t i v) : (e = (i, v) ∧ v ≠ d) ∨ e ∈ t := by
  unfold tableWrite at h
  split at h
  · exact .inr (List.mem_of_mem_filter h)
  · next hv =>
    rcases mem_tableInsert.1 h with rfl | h
    · exact .inl ⟨rfl, hv⟩
    · exact .inr (List.mem_of_mem_filter h)

/-- A write at an index of the table keeps the canonical form. -/
theorem tableWrite_wf [DecidableEq α] {size : Nat} {d : α} {t : Table α} {i : Nat} (v : α)
    (h : Table.wf size d t) (hi : i < size) : Table.wf size d (tableWrite d t i v) := by
  refine ⟨?_, fun e he => ?_⟩
  · unfold tableWrite
    split
    · exact h.1.filter _
    · exact pairwise_tableInsert (h.1.filter _) (fun e he => fst_ne_of_mem_erase he)
  · rcases mem_tableWrite he with ⟨rfl, hv⟩ | he
    · exact ⟨hi, hv⟩
    · exact h.2 e he

theorem tableBump_wf {size : Nat} {d : Counter} {t : Table Counter} {i : Nat} (o : Direction)
    (h : Table.wf size d t) (hi : i < size) : Table.wf size d (tableBump d t i o) :=
  tableWrite_wf _ h hi

/-- A read gives the initial value or a listed value. -/
theorem tableRead_mem (d : α) (t : Table α) (i : Nat) : tableRead d t i = d ∨ (i, tableRead d t i) ∈ t := by
  induction t with
  | nil => simp
  | cons e t ih =>
    obtain ⟨j, u⟩ := e
    rw [tableRead_cons]
    split
    · next h => subst h; simp
    · rcases ih with h | h
      · exact .inl h
      · exact .inr (by simp [h])

end Sys2Proof.Machine
end

