-- ==== Sys2Proof/Laws/Operands.lean ====
section
/-! SUPPORT. Small lemmas of the operand functions: masking is a remainder, indices stay in range, and training a row
keeps its length (40 R110, 41 R140, 42 R150, 43 R174). -/

namespace Sys2Proof.Machine

/-- Masking is a remainder (R110). -/
theorem and_mask (v w : Nat) : v &&& mask w = v % 2 ^ w := by
  rw [mask, Nat.and_two_pow_sub_one_eq_mod]

theorem and_mask_lt (v w : Nat) : v &&& mask w < 2 ^ w := by
  rw [and_mask]; exact Nat.mod_lt _ (Nat.two_pow_pos w)

theorem shiftIn_lt (h b w : Nat) : shiftIn h b w < 2 ^ w := and_mask_lt _ _

theorem gshareIndex_lt (h : Nat) (pc : Addr) (g : Nat) : gshareIndex h pc g < 2 ^ g := and_mask_lt _ _

theorem globalIndex_lt (b : BuildParams) (h : Nat) (pc : Addr) (g : Nat) : globalIndex b h pc g < 2 ^ g := by
  unfold globalIndex; split
  · exact gshareIndex_lt h pc g
  · exact and_mask_lt _ _

theorem percHash_lt (b : BuildParams) (pc : Addr) (h : 1 ≤ b.percS) : percHash b pc < b.percS :=
  Nat.mod_lt _ h

@[simp] theorem nudgeWeights_length (k : Nat) (o : Direction) (ph i : Nat) (ws : List Int) :
    (nudgeWeights k o ph i ws).length = ws.length := by
  induction ws generalizing i with
  | nil => rfl
  | cons w ws ih => simp [nudgeWeights, ih]

@[simp] theorem nudgeRow_length (k : Nat) (o : Direction) (ph : Nat) (row : List Int) :
    (nudgeRow k o ph row).length = row.length := by
  cases row <;> simp [nudgeRow]

@[simp] theorem zeroRow_length (h : Nat) : (zeroRow h).length = h + 1 := by simp [zeroRow]

@[simp] theorem bit_taken : bit .taken = 1 := rfl
@[simp] theorem bit_notTaken : bit .notTaken = 0 := rfl

theorem bit_le_one (o : Direction) : bit o ≤ 1 := by cases o <;> simp

end Sys2Proof.Machine
end

