-- ==== Sys2Proof/Laws/PerInstr.lean ====
section
/-! SUPPORT. A statement about every instruction as syntax, one lemma per constructor: the row that MODE selects for an
instruction's command is the instruction itself, exactly in the modes where it is well formed (30_encoding R91). -/

namespace Sys2Proof.Laws.Selects

/-- In every mode, the instruction is well formed iff its command selects it. -/
def Statement (i : Instr) : Prop := ∀ m : Mode, wellFormedIn m i = true ↔ selectRow m i.command = i

theorem init (v : BitVec 8) (g l p : BitVec 6) : Statement (.init v g l p) := by
  intro m; simp [wellFormedIn, Instr.rowMode, Instr.command, selectRow]

theorem predictNone (pc : Addr) : Statement (.predictNone pc) := by
  intro m; cases m <;> simp [wellFormedIn, Instr.rowMode, Instr.command, selectRow, predictRow]

theorem predictStatic (pc : Addr) : Statement (.predictStatic pc) := by
  intro m; cases m <;> simp [wellFormedIn, Instr.rowMode, Instr.command, selectRow, predictRow]

theorem predictGshare (pc : Addr) : Statement (.predictGshare pc) := by
  intro m; cases m <;> simp [wellFormedIn, Instr.rowMode, Instr.command, selectRow, predictRow]

theorem predictTournament (pc : Addr) : Statement (.predictTournament pc) := by
  intro m; cases m <;> simp [wellFormedIn, Instr.rowMode, Instr.command, selectRow, predictRow]

theorem predictCustom (pc : Addr) : Statement (.predictCustom pc) := by
  intro m; cases m <;> simp [wellFormedIn, Instr.rowMode, Instr.command, selectRow, predictRow]

theorem trainNone (pc : Addr) (o : Direction) : Statement (.trainNone pc o) := by
  intro m; cases m <;> simp [wellFormedIn, Instr.rowMode, Instr.command, selectRow, trainRow]

theorem trainStatic (pc : Addr) (o : Direction) : Statement (.trainStatic pc o) := by
  intro m; cases m <;> simp [wellFormedIn, Instr.rowMode, Instr.command, selectRow, trainRow]

theorem trainGshare (pc : Addr) (o : Direction) : Statement (.trainGshare pc o) := by
  intro m; cases m <;> simp [wellFormedIn, Instr.rowMode, Instr.command, selectRow, trainRow]

theorem trainTournament (pc : Addr) (o : Direction) : Statement (.trainTournament pc o) := by
  intro m; cases m <;> simp [wellFormedIn, Instr.rowMode, Instr.command, selectRow, trainRow]

theorem trainCustom (pc : Addr) (o : Direction) : Statement (.trainCustom pc o) := by
  intro m; cases m <;> simp [wellFormedIn, Instr.rowMode, Instr.command, selectRow, trainRow]

end Sys2Proof.Laws.Selects
end

