-- ==== Sys2Proof/Tests/Slice0.lean ====
section
/-! SUPPORT. The model's own tests: the well-formedness check refuses ill-formed terms, words written out bit by bit from
the spec's formats decode to what they stand for, the spec's vectors hold of single steps, and every statement that has
hypotheses has a state and operands that meet them. -/

open Sys2Proof Sys2Proof.Machine

namespace Sys2Proof.Tests

/-! ### States to test on -/

/-- The test configuration PT of 95_test_vectors. -/
def pt : BuildParams where
  percS := 4
  percH := 4
  percK := 3
  percKMult := 3
  percTheta := 3
  hashWrap := none
  chooserInit := .weakTaken
  tournGidxXor := true
  maxW := 32

/-- A state of the PT machine in the given strategy at the given widths, with the given inputs to come. -/
def at_ (st : Strategy) (g l p : BitVec 6) (inputs : List Input) : State where
  build := pt
  cfgFault := false
  cfgG := g
  cfgL := l
  cfgP := p
  strategy := st
  rsp := none
  responses := []
  inputs := inputs
  draws := 0

/-- V5's start: `G = 2`, `GHR = 01`, `GPHT = [WN, WT, WN, WN]`. -/
def gs : GshareState := { ghr := 1, gpht := [(1, .weakTaken)] }
def sG : State := at_ (.gshare gs) 2 0 0 []

/-- V6's common start with the three counters that matter: `G = 2`, `L = 2`, `P = 1`. -/
def ts (gc lc cc : Counter) : TournamentState where
  ghr := 2
  gpht := tableWrite .weakNotTaken [] 3 gc
  cht := tableWrite .weakTaken [] 2 cc
  lht := [(1, 3)]
  lpht := tableWrite .weakNotTaken [] 3 lc
def sT (gc lc cc : Counter) : State := at_ (.tournament (ts gc lc cc)) 2 2 1 []

/-- Mode CUSTOM with row 3 of `PW` and the history given. -/
def cs (row : List Int) (phist : Nat) (sc : Option Scratch) : CustomState :=
  { pw := tableWrite (zeroRow 4) [] 3 row, phist := phist, scratch := sc }
def sC (row : List Int) (phist : Nat) (sc : Option Scratch) : State := at_ (.custom (cs row phist sc)) 0 0 0 []

def sN : State := at_ .none 0 0 0 []
def sS : State := at_ .static 0 0 0 []

/-- The strategy after an instruction that answers a next state. -/
def after (i : Instr) (s : State) : Option Strategy :=
  match exec i s with
  | .next t => some t.strategy
  | _ => Option.none

/-- The response word an instruction answers. -/
def rspOf (i : Instr) (s : State) : Option (BitVec 3) :=
  match exec i s with
  | .next t => t.rsp.map responseWord
  | _ => Option.none

/-- Whether a step of the machine answers a next state. -/
def stepGoesOn (s : State) : Bool :=
  match step s with
  | .next _ => true
  | _ => false

/-! ### The well-formedness check refuses -/

theorem test_wellFormed_refuses :
    wellFormedIn .static (.predictNone 0#32) = false ∧ wellFormedIn .none (.predictStatic 0#32) = false ∧
    wellFormedIn .tournament (.predictGshare 0#32) = false ∧ wellFormedIn .gshare (.predictTournament 0#32) = false ∧
    wellFormedIn .gshare (.predictCustom 0#32) = false ∧ wellFormedIn .static (.trainNone 0#32 .taken) = false ∧
    wellFormedIn .none (.trainStatic 0#32 .taken) = false ∧ wellFormedIn .custom (.trainGshare 0#32 .taken) = false ∧
    wellFormedIn .custom (.trainTournament 0#32 .taken) = false ∧
    wellFormedIn .tournament (.trainCustom 0#32 .taken) = false := by decide

theorem test_wellFormed_init_in_every_mode :
    ∀ m ∈ [Mode.none, .static, .gshare, .tournament, .custom], wellFormedIn m (.init 9#8 0#6 0#6 0#6) = true := by
  decide

/-- Illegal build parameters and tables that are not canonical are refused (R6; log entry 7). -/
theorem test_checks_refuse :
    ¬ BuildParams.Legal { pt with percS := 0 } ∧ ¬ BuildParams.Legal { pt with percK := 0 } ∧
    ¬ BuildParams.Legal { pt with maxW := 64 } ∧
    ¬ Table.wf 4 Counter.weakNotTaken [(2, .weakTaken), (1, .weakTaken)] ∧
    ¬ Table.wf 4 Counter.weakNotTaken [(1, .weakNotTaken)] ∧ ¬ Table.wf 4 Counter.weakNotTaken [(4, .weakTaken)] := by
  decide

/-! ### Words written out bit by bit from the formats (R82, R83, R84), as V11 and V12 number them -/

/-- op 00, reserved 0, p = 1, l = 2, g = 2, variant 2. -/
theorem test_decode_init :
    decode .none 0b00_00000000_000001_000010_000010_00000010#36 = some (.init 2#8 2#6 2#6 1#6) := by decide
theorem test_decode_predict_none :
    decode .none 0b01_00_00000000000000000000000001000000#36 = some (.predictNone 0x40#32) := by decide
theorem test_decode_predict_static :
    decode .static 0b01_00_11111111111111111111111111111111#36 = some (.predictStatic 0xFFFFFFFF#32) := by decide
theorem test_decode_predict_gshare :
    decode .gshare 0b01_00_00000000000000000000000000000100#36 = some (.predictGshare 4#32) := by decide
theorem test_decode_predict_tournament :
    decode .tournament 0b01_00_10000000000000000000000000000001#36 = some (.predictTournament 0x80000001#32) := by decide
theorem test_decode_predict_custom :
    decode .custom 0b01_00_00000000000000000000000000000101#36 = some (.predictCustom 5#32) := by decide
theorem test_decode_train_none :
    decode .none 0b10_0_1_00000000000000000000000000000000#36 = some (.trainNone 0#32 .taken) := by decide
theorem test_decode_train_static :
    decode .static 0b10_0_0_00000000000000000000000001000000#36 = some (.trainStatic 0x40#32 .notTaken) := by decide
theorem test_decode_train_gshare :
    decode .gshare 0b10_0_1_00000000000000000000000000000100#36 = some (.trainGshare 4#32 .taken) := by decide
theorem test_decode_train_tournament :
    decode .tournament 0b10_0_0_00000000000000000000000000000001#36 = some (.trainTournament 1#32 .notTaken) := by decide
theorem test_decode_train_custom :
    decode .custom 0b10_0_1_11111111111111111111111111111111#36 = some (.trainCustom 0xFFFFFFFF#32 .taken) := by decide
theorem test_encode_words :
    encode (.init 2#8 9#6 10#6 10#6) = 0x000A28902#36 ∧ encode (.predictGshare 0x40#32) = 0x400000040#36 ∧
    encode (.trainCustom 0#32 .taken) = 0x900000000#36 := by decide
theorem test_tableWord : decodeTableWord 40 0x900000010 = some (.trainNone 0x10#32 .taken) := by decide

/-! ### Single steps from the spec's vectors -/

/-- V11: a legal width at `MAXW` and one above it; every field at its maximum. -/
theorem test_init_widths :
    after (.init 1#8 32#6 0#6 0#6) (sT .weakTaken .weakNotTaken .weakTaken) = some (.gshare { ghr := 0, gpht := [] }) ∧
    after (.init 1#8 33#6 0#6 0#6) (sT .weakTaken .weakNotTaken .weakTaken) = some .none ∧ rspOf (.init 255#8 63#6 63#6 63#6) (sT .weakTaken .weakNotTaken .weakTaken) = some 0b010#3 := by
  decide
/-- V11, R216: the causes, in order. -/
theorem test_fault_causes :
    faultCause pt 9#8 0#6 0#6 0#6 = some .unknownVariant ∧ faultCause pt 2#8 0#6 0#6 1#6 = some .zeroWidthG ∧
    faultCause pt 2#8 2#6 0#6 1#6 = some .zeroWidthL ∧ faultCause pt 1#8 33#6 0#6 0#6 = some .widthTooLargeG ∧
    faultCause pt 0#8 0#6 63#6 63#6 = none := by decide
/-- V13. -/
theorem test_none_mode : rspOf (.predictNone 0x1234#32) sN = some 0b000#3 ∧ rspOf (.trainNone 0#32 .taken) sN = some 0#3 := by
  decide
theorem test_static_mode :
    rspOf (.predictStatic 0xFFFFFFFF#32) sS = some 0b001#3 ∧ after (.trainStatic 0#32 .notTaken) sS = some .static := by
  decide
/-- V5, rows 1 and 2. -/
theorem test_predict_gshare :
    rspOf (.predictGshare 0#32) sG = some 0b001#3 ∧ rspOf (.predictGshare 1#32) sG = some 0b000#3 := by decide
/-- V5, rows 3 and 4: the index is of the old history; back at WeakNotTaken the entry is not listed. -/
theorem test_train_gshare :
    after (.trainGshare 0#32 .taken) sG = some (.gshare { ghr := 3, gpht := [(1, .strongTaken)] }) ∧
    after (.trainGshare 0#32 .notTaken) sG = some (.gshare { ghr := 2, gpht := [] }) := by decide
/-- V6, cases A and G. -/
theorem test_predict_tournament :
    rspOf (.predictTournament 1#32) (sT .weakTaken .weakNotTaken .weakTaken) = some 0b001#3 ∧
    rspOf (.predictTournament 1#32) (sT .strongNotTaken .strongTaken .weakNotTaken) = some 0b001#3 := by decide
/-- V6, cases B and C. -/
theorem test_train_tournament :
    after (.trainTournament 1#32 .notTaken) (sT .weakTaken .weakNotTaken .weakTaken) = some (.tournament
      { ghr := 0, gpht := [], cht := [(2, .weakNotTaken)], lht := [(1, 2)], lpht := [(3, .strongNotTaken)] }) ∧
    after (.trainTournament 1#32 .notTaken) (sT .weakTaken .weakTaken .weakTaken) = some (.tournament
      { ghr := 0, gpht := [], cht := [], lht := [(1, 2)], lpht := [] }) := by decide
/-- V9, rows 6 and 8: `-WMIN` is added unclamped, and the upper bound. -/
theorem test_mac_sum : percOut [3, 3, -4, 3, -4] 0b0101 = 17 ∧ percOut [3, -4, -4, -4, -4] 0b0000 = 19 := by decide
/-- V10, row 2: `abs(out) = theta` does not set the flag. -/
theorem test_predict_custom :
    after (.predictCustom 5#32) (sC [3, 0, 0, 0, 0] 0b1010 none) =
      some (.custom (cs [3, 0, 0, 0, 0] 0b1010 (some ⟨3, .taken, false⟩))) := by decide
/-- V10, rows 10 and 11 (S7): saturation at both ends. -/
theorem test_train_custom :
    after (.trainCustom 5#32 .taken) (sC [0, 3, -4, 0, 0] 0b0011 (some ⟨-1, .notTaken, true⟩)) =
      some (.custom (cs [1, 3, -3, -1, -1] 0b0111 (some ⟨-1, .notTaken, true⟩))) ∧
    after (.trainCustom 5#32 .notTaken) (sC [0, 3, -4, 0, 0] 0b0011 (some ⟨-1, .notTaken, true⟩)) =
      some (.custom (cs [-1, 2, -4, 1, 1] 0b0110 (some ⟨-1, .notTaken, true⟩))) := by decide
/-- V7, rows 4 to 7: where `HASH_WRAP` matters. -/
theorem test_hash :
    percHash { pt with percS := 7 } 0xFFFFFFFF#32 = 2 ∧
    percHash { pt with percS := 7, hashWrap := some 32 } 0xFFFFFFFF#32 = 1 ∧
    percHash { pt with percS := 3, percKMult := 2 } 0x80000000#32 = 1 ∧
    percHash { pt with percS := 3, percKMult := 2, hashWrap := some 32 } 0x80000000#32 = 0 := by decide
/-- V2, rows 5 to 7. -/
theorem test_shift_in :
    shiftIn 0xFFFFFFFF 1 32 = 0xFFFFFFFF ∧ shiftIn 0x80000000 0 32 = 0 ∧ shiftIn 0b101 1 0 = 0 := by decide
/-- A table word runs as the first command after reset. -/
theorem test_first_step_after_reset : stepGoesOn (State.reset.withFetchWord 40 0x000000201) = true := by decide

/-! ### Witnesses: every statement with hypotheses has a case that meets them all -/

def wPredict : CmdWord := 0x400000005#36
def wTrain : CmdWord := 0x900000005#36
def wInit : CmdWord := 0x000000201#36
def wIllegal : CmdWord := 0xC00000000#36

theorem witness_DecodeOfEncode : wellFormedIn .gshare (.predictGshare 0xFFFFFFFF#32) = true := by decide
theorem witness_EncodeOfDecode : decode .custom wTrain = some (.trainCustom 5#32 .taken) := by decide
theorem witness_StepRunsTheDecodedInstruction :
    let s := { sG with inputs := [.command wPredict] }
    s.inputs = .command wPredict :: [] ∧ decode (mode s) wPredict = some (.predictGshare 5#32) ∧
      wellFormedIn (mode s) (.predictGshare 5#32) = true ∧
      decode (mode s) (encode (.predictGshare 5#32)) = some (.predictGshare 5#32) := by decide
theorem witness_IllegalWordHasNoEffect :
    decodeCommand wIllegal = none ∧ { sG with inputs := [.command wIllegal] }.inputs = .command wIllegal :: [] := by decide
theorem witness_PowerOnState : { sG with inputs := [.rst] }.inputs = .rst :: [] := by decide
theorem sG_inv : ({ sG with inputs := [.command wTrain] } : State).Inv := by
  refine ⟨by decide, ?_, by decide, by decide, by decide⟩
  show GshareOk _ _ _
  decide
theorem witness_EveryStepKeepsTheInvariant :
    ({ sG with inputs := [.command wTrain] } : State).Inv ∧ ∃ t, step { sG with inputs := [.command wTrain] } = .next t :=
  ⟨sG_inv, _, rfl⟩
theorem witness_EveryStepKeepsTheInvariant_custom : (sC [3, -4, 0, 0, 1] 0b1010 (some ⟨3, .taken, false⟩)).Inv := by
  refine ⟨by decide, ?_, by decide, by decide, by decide⟩
  show CustomOk _ _
  decide
theorem witness_EveryStepKeepsTheInvariant_tournament : (sT .strongTaken .strongNotTaken .weakNotTaken).Inv := by
  refine ⟨by decide, ?_, by decide, by decide, by decide⟩
  show TournamentOk _ _ _ _ _
  decide
theorem witness_ExecutesExactlyTheSelectedRows :
    wellFormedIn (mode sG) (.trainGshare 0#32 .taken) = true ∧ wellFormedIn (mode sG) (.trainCustom 0#32 .taken) = false := by
  decide
theorem witness_ConfigurationChangesOnlyAtInitOrReset :
    ∃ s t, step s = .next t ∧ (∀ rest, s.inputs ≠ .rst :: rest) ∧
      ∀ w rest v g l p, s.inputs = .command w :: rest → decodeCommand w ≠ some (.init v g l p) := by
  refine ⟨{ sG with inputs := [.command wTrain] }, _, rfl, by simp, ?_⟩
  intro w rest v g l p h
  simp only [List.cons.injEq, Input.command.injEq] at h
  rw [← h.1, show decodeCommand wTrain = some (.train 5#32 .taken) by decide]
  simp
theorem witness_FaultOutputFollowsInit :
    (∃ t, step { sG with inputs := [.command wInit] } = .next t) ∧ (∃ t, step { sG with inputs := [.rst] } = .next t) ∧
    ∃ t, step { sG with inputs := [.command 0x000000009#36] } = .next t := ⟨⟨_, rfl⟩, ⟨_, rfl⟩, ⟨_, rfl⟩⟩
theorem witness_BuildParametersNeverChange :
    ∃ t, Sys2Proof.core.run 2 { sG with inputs := [.command wInit, .rst] } = .next t := ⟨_, rfl⟩
theorem witness_PredictOutsideCustomChangesNothing :
    { sG with inputs := [.command wPredict] }.inputs = .command wPredict :: [] ∧
    decodeCommand wPredict = some (.predict 5#32) ∧ mode sG ≠ .custom := by decide
theorem witness_ScratchIsWrittenOnlyByPredict :
    ∃ s t st st', step s = .next t ∧ s.strategy = .custom st ∧ t.strategy = .custom st' ∧
      ∀ w rest, s.inputs = .command w :: rest →
        (∀ pc, decodeCommand w ≠ some (.predict pc)) ∧ ∀ v g l p, decodeCommand w ≠ some (.init v g l p) := by
  refine ⟨{ sC [3, 0, 0, 0, 0] 0 (some ⟨3, .taken, false⟩) with inputs := [.command wTrain] }, _, _, _, rfl, rfl, rfl, ?_⟩
  intro w rest h
  simp only [List.cons.injEq, Input.command.injEq] at h
  rw [← h.1, show decodeCommand wTrain = some (.train 5#32 .taken) by decide]
  simp
theorem witness_EveryCommandIsAnswered : { sN with inputs := [.command wInit] }.inputs = .command wInit :: [] := by decide
theorem witness_OneResponsePerCommand :
    { sN with inputs := [.command wInit, .rst, .command wPredict] }.inputs =
      [.command wInit, .rst] ++ [.command wPredict] := by decide
theorem witness_LaterInputsDoNotMatter :
    { sN with inputs := [.command wInit] }.inputs = [.command wInit] ∧
    ∃ t, Sys2Proof.core.run [Input.command wInit].length { sN with inputs := [.command wInit] } = .next t :=
  ⟨rfl, _, rfl⟩
theorem witness_MaskAndShiftIn : (0 : Nat) ≤ 1 ∧ (1 : Nat) ≤ 1 := by decide
theorem witness_EveryIndexIsInRange : pt.Legal := by decide
theorem witness_SaturationLaw : 3 ≤ 3 := by decide
theorem witness_CanonicalTablesAreDeterminedByTheirEntries :
    Table.wf 4 Counter.weakNotTaken [(1, .weakTaken), (3, .strongTaken)] ∧
    ∀ i, tableRead Counter.weakNotTaken [(1, .weakTaken), (3, .strongTaken)] i =
      tableRead .weakNotTaken [(1, .weakTaken), (3, .strongTaken)] i := ⟨by decide, fun _ => rfl⟩
/-- Each clause at a boundary: width 0, the full width, two addresses that alias. -/
theorem witness_GshareIndexAliases :
    (0x5#32).toNat % 2 ^ 2 = (0xFFFFFFF1#32).toNat % 2 ^ 2 ∧ 3 < 2 ^ 2 ∧ 0 < 2 ^ 0 ∧ 0xFFFFFFFF < 2 ^ 32 := by decide
theorem witness_InitBuildsTheRequestedMode :
    configValid pt 0#8 0#6 0#6 0#6 = true ∧ configValid pt 1#8 1#6 0#6 63#6 = true ∧
    configValid pt 2#8 1#6 32#6 1#6 = true ∧ configValid pt 3#8 0#6 0#6 0#6 = true := by decide
theorem witness_InitTakesTheConfigFault :
    configValid pt 4#8 1#6 1#6 1#6 = false ∧ configValid pt 1#8 0#6 0#6 0#6 = false ∧
    configValid pt 2#8 32#6 32#6 33#6 = false := by decide
theorem witness_InitForgetsTheOldState : sG.build = (sC [1, 1, 1, 1, 1] 0 none).build := by decide
theorem witness_NoneModeCommands : sN.strategy = .none := by decide
theorem witness_StaticModeCommands : sS.strategy = .static := by decide
theorem witness_GshareCommands : sG.strategy = .gshare gs := by decide
theorem witness_TournamentCommands :
    let st := ts .weakTaken .weakNotTaken .strongTaken
    (sT .weakTaken .weakNotTaken .strongTaken).strategy = .tournament st ∧
    (3 = (if pt.tournGidxXor = true then st.ghr ^^^ (1#32).toNat else st.ghr) % 2 ^ (2#6).toNat) ∧
    2 = st.ghr % 2 ^ (2#6).toNat ∧ 1 = (1#32).toNat % 2 ^ (1#6).toNat ∧
    3 = tableRead 0 st.lht 1 % 2 ^ (2#6).toNat ∧ Direction.taken = counterRead (tableRead .weakNotTaken st.gpht 3) ∧
    Direction.notTaken = counterRead (tableRead .weakNotTaken st.lpht 3) := by decide
theorem witness_BothPredictorsAreAlwaysTrained :
    (sT .weakTaken .weakTaken .weakTaken).strategy = .tournament (ts .weakTaken .weakTaken .weakTaken) ∧
    1 ≤ (sT .weakTaken .weakTaken .weakTaken).cfgG.toNat ∧ 1 ≤ (sT .weakTaken .weakTaken .weakTaken).cfgL.toNat := by decide
/-- P3's first branch: both sub-predictors wrong. -/
theorem witness_ChooserStability :
    let s := { sT .weakTaken .weakTaken .weakTaken with inputs := branchInputs [(1#32, .notTaken)] }
    s.strategy = .tournament (ts .weakTaken .weakTaken .weakTaken) ∧ s.inputs = branchInputs [(1#32, .notTaken)] ∧
    alwaysAgree s.build s.cfgG.toNat s.cfgL.toNat s.cfgP.toNat (ts .weakTaken .weakTaken .weakTaken)
      [(1#32, .notTaken)] := ⟨rfl, rfl, by decide, trivial⟩
/-- Each clause: no truncation, a truncation, a product below `2^32`, a slot count that divides `2^32`. -/
theorem witness_HashFormula :
    1 ≤ pt.percS ∧ pt.hashWrap = none ∧ { pt with hashWrap := some 32 }.hashWrap = some 32 ∧
    (5#32).toNat * pt.percKMult < 2 ^ 32 ∧ pt.percS ∣ 2 ^ 32 := by decide
theorem witness_WeightSaturation :
    -(2 ^ (3 - 1)) ≤ (3 : Int) ∧ (3 : Int) ≤ 2 ^ (3 - 1) - 1 ∧ -(2 ^ (3 - 1)) ≤ (-4 : Int) ∧ (-4 : Int) ≤ 2 ^ (3 - 1) - 1 := by
  decide
theorem witness_MacSumFormula : ([3, 3, -4, 3, -4] : List Int).length = 4 + 1 := by decide
theorem witness_AccumulatorBounds : pt.Legal ∧ RowOk pt [3, -4, -4, -4, -4] := by decide
theorem witness_PredictCustomRecordsTheSum :
    (sC [1, -1, -1, -1, -1] 1 none).strategy = .custom (cs [1, -1, -1, -1, -1] 1 none) ∧
    3 = percOut (tableRead (zeroRow 4) (cs [1, -1, -1, -1, -1] 1 none).pw (percHash pt 5#32)) 1 ∧
    Direction.taken = (if (0 : Int) ≤ 3 then .taken else .notTaken) := by decide
theorem witness_PredictCustomIsIdempotent :
    ∃ t, exec (.predictCustom 5#32) (sC [1, -1, -1, -1, -1] 1 none) = .next t := ⟨_, rfl⟩
/-- Both clauses: training needed, and not. -/
theorem witness_TrainCustomAdjustsTheRow :
    (sC [0, 3, -4, 0, 0] 3 (some ⟨-1, .notTaken, true⟩)).strategy =
      .custom (cs [0, 3, -4, 0, 0] 3 (some ⟨-1, .notTaken, true⟩)) ∧
    (cs [0, 3, -4, 0, 0] 3 (some ⟨-1, .notTaken, true⟩)).scratch = some ⟨-1, .notTaken, true⟩ ∧
    3 = percHash pt 5#32 ∧ (Direction.notTaken ≠ .taken ∨ true = true) ∧ ¬(Direction.taken ≠ .taken ∨ false = true) := by decide
theorem witness_TrainCustomWithUnwrittenScratch :
    (sC [1, 0, 0, 0, 0] 0 none).strategy = .custom (cs [1, 0, 0, 0, 0] 0 none) ∧
    (cs [1, 0, 0, 0, 0] 0 none).scratch = none ∧ 3 = percHash pt 5#32 := by decide
theorem witness_ConfidentCorrectTrainsNothing :
    (sC [3, 0, 0, 0, 0] 10 (some ⟨3, .taken, false⟩)).strategy = .custom (cs [3, 0, 0, 0, 0] 10 (some ⟨3, .taken, false⟩)) ∧
    (cs [3, 0, 0, 0, 0] 10 (some ⟨3, .taken, false⟩)).scratch = some ⟨3, .taken, false⟩ ∧
    (Scratch.mk 3 .taken false).need = false := by decide
theorem witness_WeightReinforcement :
    (sC [0, 3, -4, 0, 0] 3 (some ⟨-1, .notTaken, true⟩)).strategy =
      .custom (cs [0, 3, -4, 0, 0] 3 (some ⟨-1, .notTaken, true⟩)) ∧
    (cs [0, 3, -4, 0, 0] 3 (some ⟨-1, .notTaken, true⟩)).scratch = some ⟨-1, .notTaken, true⟩ ∧
    (Direction.notTaken ≠ .taken ∨ true = true) ∧
    [0, 3, -4, 0, 0] =
      tableRead (zeroRow 4) (cs [0, 3, -4, 0, 0] 3 (some ⟨-1, .notTaken, true⟩)).pw (percHash pt 5#32) ∧
    RowOk pt [0, 3, -4, 0, 0] := by decide
/-- S10, for the first clause; two different slots for the second. -/
theorem witness_SlotSharing :
    percHash pt 0x5#32 = percHash pt 0x9#32 ∧ percHash pt 0x5#32 ≠ percHash pt 0x2#32 ∧
    ∃ t t' st st', exec (.trainCustom 0x5#32 .taken) (sC [1, 0, 0, 0, 0] 0 none) = .next t ∧
      exec (.trainCustom 0x2#32 .taken) (sC [1, 0, 0, 0, 0] 0 none) = .next t' ∧
      t.strategy = .custom st ∧ t'.strategy = .custom st' :=
  ⟨by decide, by decide, _, _, _, _, rfl, rfl, rfl, rfl⟩
/-- The address folded in and not, a masked history at its bound, and an address whose low bits are 0. -/
theorem witness_TournamentIndexFormulas :
    pt.tournGidxXor = true ∧ { pt with tournGidxXor := false }.tournGidxXor = false ∧ 3 < 2 ^ 2 ∧
    (0x1000#32).toNat % 2 ^ 2 = 0 ∧ (0x1001#32).toNat % 2 ^ 2 ≠ 0 := by decide

def someBranches : List (Addr × Direction) := [(4#32, .taken), (5#32, .notTaken), (4#32, .taken)]
def freshTournament : TournamentState := { ghr := 0, gpht := [], cht := [], lht := [], lpht := [] }

theorem witness_GlobalHistoryHoldsTheLastOutcomes :
    globalHistory (.gshare { ghr := 0, gpht := [] }) = some 0 ∧ globalHistory (.tournament freshTournament) = some 0 ∧
    (at_ (.gshare { ghr := 0, gpht := [] }) 2 0 0 (branchInputs someBranches)).inputs = branchInputs someBranches := by decide
theorem witness_LocalHistoriesHoldTheLastOutcomes :
    (at_ (.tournament freshTournament) 2 2 1 (branchInputs someBranches)).strategy = .tournament freshTournament ∧
    (∀ i, tableRead 0 freshTournament.lht i = 0) ∧
    (at_ (.tournament freshTournament) 2 2 1 (branchInputs someBranches)).inputs = branchInputs someBranches :=
  ⟨rfl, fun _ => rfl, rfl⟩
theorem witness_PerceptronHistoryHoldsTheLastOutcomes :
    (at_ (.custom (cs [0, 0, 0, 0, 0] 0 none)) 0 0 0 (branchInputs someBranches)).strategy =
      .custom (cs [0, 0, 0, 0, 0] 0 none) ∧ (cs [0, 0, 0, 0, 0] 0 none).phist = 0 ∧
    (at_ (.custom (cs [0, 0, 0, 0, 0] 0 none)) 0 0 0 (branchInputs someBranches)).inputs = branchInputs someBranches := by decide

/-- INIT of mode CUSTOM and two branch events. -/
def contractInputs : List Input :=
  .command 0x000000003#36 :: branchInputs [(5#32, .taken), (9#32, .notTaken)]

theorem witness_ContractRuns :
    obeysContract .beforeInit { sN with inputs := contractInputs }.inputs = true ∧
    obeysContract .ready (branchInputs someBranches) = true ∧
    ∃ t, Sys2Proof.core.run 5 { sN with inputs := contractInputs } = .next t := ⟨by decide, by decide, _, rfl⟩
theorem witness_ContractInvariantAtReset : obeysContract .beforeInit contractInputs = true := by decide
/-- A TRAIN owed in mode CUSTOM, with the scratch state a PREDICT left. -/
def sOwed (inputs : List Input) : State :=
  at_ (.custom (cs [0, 0, 0, 0, 0] 0 (some ⟨0, .taken, true⟩))) 0 0 0 inputs

/-- A witness for each clause: nothing presented, before the first INIT and after it, the first INIT, `rst` while a TRAIN is owed, an illegal word, the owed TRAIN, and a
PREDICT while the scratch state holds no value. -/
theorem witness_EveryStepKeepsTheContractInvariant :
    (ContractInv .beforeInit sN ∧ ContractInv .ready sN ∧ stepGoesOn sN = true) ∧
    (ContractInv .beforeInit { sN with inputs := contractInputs } ∧
      stepGoesOn { sN with inputs := contractInputs } = true) ∧
    (ContractInv (.awaiting 5#32) (sOwed [.rst]) ∧ stepGoesOn (sOwed [.rst]) = true) ∧
    (ContractInv (.awaiting 5#32) (sOwed [.command 0xC00000000#36, .command 0x900000005#36]) ∧
      stepGoesOn (sOwed [.command 0xC00000000#36, .command 0x900000005#36]) = true) ∧
    (ContractInv (.awaiting 5#32) (sOwed [.command 0x900000005#36]) ∧
      stepGoesOn (sOwed [.command 0x900000005#36]) = true) ∧
    (ContractInv .ready (at_ (.custom (cs [0, 0, 0, 0, 0] 0 none)) 0 0 0 (branchInputs someBranches)) ∧
      stepGoesOn (at_ (.custom (cs [0, 0, 0, 0, 0] 0 none)) 0 0 0 (branchInputs someBranches)) = true) := by
  refine ⟨⟨⟨by decide, by decide, ?_⟩, ⟨by decide, by decide, ?_⟩, by decide⟩, ⟨⟨by decide, by decide, ?_⟩, by decide⟩,
    ⟨⟨by decide, by decide, ?_⟩, by decide⟩, ⟨⟨by decide, by decide, ?_⟩, by decide⟩,
    ⟨⟨by decide, by decide, ?_⟩, by decide⟩, ⟨by decide, by decide, ?_⟩, by decide⟩
  · intro pc h; cases h
  · intro pc h; cases h
  · intro pc h; cases h
  · rintro pc - st h; cases h; decide
  · rintro pc - st h; cases h; decide
  · rintro pc - st h; cases h; decide
  · intro pc h; cases h
/-- The contract invariant refuses a TRAIN owed in mode CUSTOM while the scratch state holds no value, and before the
first INIT a unit in another mode, with `CFG_FAULT` set or with a width that is not 0. -/
theorem test_contractInv_refuses :
    ¬ ContractInv (.awaiting 5#32) (at_ (.custom (cs [0, 0, 0, 0, 0] 0 none)) 0 0 0 [.command 0x900000005#36]) ∧
    ¬ ContractInv .beforeInit sS ∧ ¬ ContractInv .beforeInit { sN with cfgFault := true } ∧
    ¬ ContractInv .beforeInit { sN with cfgP := 1 } :=
  ⟨fun h => h.2.2 _ rfl _ rfl rfl, fun h => absurd (h.2.1 rfl) (by decide), fun h => absurd (h.2.1 rfl) (by decide),
    fun h => absurd (h.2.1 rfl) (by decide)⟩
/-- The contract refuses a TRAIN without its PREDICT, two PREDICTs in a row, and a TRAIN of another address. -/
theorem test_contract_refuses :
    obeysContract .ready [.command wTrain] = false ∧ obeysContract .ready [.command wPredict, .command wPredict] = false ∧
    obeysContract .ready [.command wPredict, .command 0x900000009#36] = false ∧
    obeysContract .beforeInit [.command wPredict, .command wTrain] = false := by decide

end Sys2Proof.Tests
end

section
/-! PROOFS. Completion of every step (00_scope R10, 70_reset R237): each meaning completes from the strategy of its
row, and a step runs only the row that MODE selects. -/

open Sys2Proof Sys2Proof.Machine

namespace Sys2Proof.Machine

/-! ### What a meaning answers in the mode of its row: the converses of the inversion lemmas `exec…_spec` -/

section RowSelected

variable {s : State} (pc : Addr) (o : Direction)

theorem execPredictNone_of_strategy (h : s.strategy = .none) :
    execPredictNone pc s = .next (answer (bitOf .notTaken) s) := by
  simp only [execPredictNone, h]

theorem execTrainNone_of_strategy (h : s.strategy = .none) : execTrainNone pc o s = .next (answer 0#1 s) := by
  simp only [execTrainNone, h]

theorem execPredictStatic_of_strategy (h : s.strategy = .static) :
    execPredictStatic pc s = .next (answer (bitOf .taken) s) := by
  simp only [execPredictStatic, h]

theorem execTrainStatic_of_strategy (h : s.strategy = .static) : execTrainStatic pc o s = .next (answer 0#1 s) := by
  simp only [execTrainStatic, h]

theorem execPredictGshare_of_strategy {st : GshareState} (h : s.strategy = .gshare st) :
    execPredictGshare pc s = .next (answer (bitOf (gsharePrediction s.cfgG.toNat st pc)) s) := by
  simp only [execPredictGshare, h]

theorem execTrainGshare_of_strategy {st : GshareState} (h : s.strategy = .gshare st) :
    execTrainGshare pc o s = .next (answerWith 0#1 (.gshare (gshareTrained s.cfgG.toNat st pc o)) s) := by
  simp only [execTrainGshare, h]

theorem execPredictTournament_of_strategy {st : TournamentState} (h : s.strategy = .tournament st) :
    execPredictTournament pc s =
      .next (answer (bitOf (tournamentPrediction s.build s.cfgG.toNat s.cfgL.toNat s.cfgP.toNat st pc)) s) := by
  simp only [execPredictTournament, h]

theorem execTrainTournament_of_strategy {st : TournamentState} (h : s.strategy = .tournament st) :
    execTrainTournament pc o s =
      .next (answerWith 0#1
        (.tournament (tournamentTrained s.build s.cfgG.toNat s.cfgL.toNat s.cfgP.toNat st pc o)) s) := by
  simp only [execTrainTournament, h]

theorem execPredictCustom_of_strategy {st : CustomState} (h : s.strategy = .custom st) :
    execPredictCustom pc s =
      .next (answerWith (bitOf (customScratch s.build st pc).pred) (.custom (customPredicted s.build st pc)) s) := by
  simp only [execPredictCustom, h]

theorem execTrainCustom_of_strategy {st : CustomState} (h : s.strategy = .custom st) :
    execTrainCustom pc o s =
      .next (answerWith 0#1
        (.custom (customTrained s.build (scratchPred s.draws st.scratch) (scratchNeed s.draws st.scratch) st pc o))
        { s with draws := drawsAfter s.draws st.scratch }) := by
  simp only [execTrainCustom, h]

end RowSelected

/-! ### Completion of the row that MODE selects -/

theorem execInit_completes (v : BitVec 8) (g l p : BitVec 6) (s : State) : ∃ t, execInit v g l p s = .next t := by
  unfold execInit
  split
  · exact ⟨_, rfl⟩
  · exact ⟨_, rfl⟩

theorem exec_predictRow_completes (pc : Addr) (s : State) : ∃ t, exec (predictRow (mode s) pc) s = .next t := by
  unfold mode
  cases hs : s.strategy with
  | none => exact ⟨_, execPredictNone_of_strategy pc hs⟩
  | static => exact ⟨_, execPredictStatic_of_strategy pc hs⟩
  | gshare st => exact ⟨_, execPredictGshare_of_strategy pc hs⟩
  | tournament st => exact ⟨_, execPredictTournament_of_strategy pc hs⟩
  | custom st => exact ⟨_, execPredictCustom_of_strategy pc hs⟩

theorem exec_trainRow_completes (pc : Addr) (o : Direction) (s : State) :
    ∃ t, exec (trainRow (mode s) pc o) s = .next t := by
  unfold mode
  cases hs : s.strategy with
  | none => exact ⟨_, execTrainNone_of_strategy pc o hs⟩
  | static => exact ⟨_, execTrainStatic_of_strategy pc o hs⟩
  | gshare st => exact ⟨_, execTrainGshare_of_strategy pc o hs⟩
  | tournament st => exact ⟨_, execTrainTournament_of_strategy pc o hs⟩
  | custom st => exact ⟨_, execTrainCustom_of_strategy pc o hs⟩

/-- The row MODE selects is never refused (R91, R190). -/
theorem exec_selectRow_completes (c : Command) (s : State) : ∃ t, exec (selectRow (mode s) c) s = .next t := by
  cases c with
  | init v g l p => exact execInit_completes v g l p s
  | predict pc => exact exec_predictRow_completes pc s
  | train pc o => exact exec_trainRow_completes pc o s

end Sys2Proof.Machine

namespace Sys2Proof.Proofs

/-- Settles O11: waiting, `rst` and an illegal word answer a next state at once, and any other word runs the row that
MODE selects; taking the input off the list does not change MODE. -/
theorem everyStepCompletes : Obligations.EveryStepCompletes := by
  unfold Obligations.EveryStepCompletes
  intro s
  obtain ⟨-, hstep⟩ | ⟨rest, -, hstep⟩ | ⟨w, rest, -, -, hstep⟩ | ⟨w, rest, c, -, -, hstep⟩ := step_cases s
  · exact ⟨s, hstep⟩
  · exact ⟨powerOn { s with inputs := rest }, hstep⟩
  · exact ⟨takeIllegalCommand { s with inputs := rest }, hstep⟩
  · obtain ⟨t, ht⟩ := exec_selectRow_completes c { s with inputs := rest }
    exact ⟨t, hstep.trans ht⟩

end Sys2Proof.Proofs
end

section
/-! PROOFS. What one step does to the unit, whatever MODE is: PREDICT and TRAIN as functions of the active strategy,
and one inversion of `step` with a case for each thing the unit can do (44_dispatch R190, 70_reset R237). -/

namespace Sys2Proof.Machine

/-! ### PREDICT and TRAIN as functions of the strategy -/

/-- The active strategy after a PREDICT (R65): only mode CUSTOM records anything. -/
def predictedStrategy (b : BuildParams) (pc : Addr) : Strategy → Strategy
  | .custom st => .custom (customPredicted b st pc)
  | st => st

/-- The active strategy after a TRAIN (R142, R154, R174, R192, R194); `n` is the count of free draws before it. -/
def trainedStrategy (b : BuildParams) (g l p n : Nat) (pc : Addr) (o : Direction) : Strategy → Strategy
  | .gshare st => .gshare (gshareTrained g st pc o)
  | .tournament st => .tournament (tournamentTrained b g l p st pc o)
  | .custom st => .custom (customTrained b (scratchPred n st.scratch) (scratchNeed n st.scratch) st pc o)
  | st => st

/-- The count of free draws after a TRAIN: only mode CUSTOM reads the scratch state. -/
def trainDraws (n : Nat) : Strategy → Nat
  | .custom st => drawsAfter n st.scratch
  | _ => n

@[simp] theorem modeOf_predictedStrategy (b : BuildParams) (pc : Addr) (st : Strategy) :
    modeOf (predictedStrategy b pc st) = modeOf st := by
  cases st <;> rfl

@[simp] theorem modeOf_trainedStrategy (b : BuildParams) (g l p n : Nat) (pc : Addr) (o : Direction)
    (st : Strategy) : modeOf (trainedStrategy b g l p n pc o st) = modeOf st := by
  cases st <;> rfl

/-- The state after the unit has run `PREDICT pc` and answered `d`. -/
def afterPredict (d : BitVec 1) (pc : Addr) (s : State) : State :=
  answerWith d (predictedStrategy s.build pc s.strategy) s

/-- The state after the unit has run `TRAIN pc, o`. -/
def afterTrain (pc : Addr) (o : Direction) (s : State) : State :=
  answerWith 0#1 (trainedStrategy s.build s.cfgG.toNat s.cfgL.toNat s.cfgP.toNat s.draws pc o s.strategy)
    { s with draws := trainDraws s.draws s.strategy }

section Fields

variable (d : BitVec 1) (pc : Addr) (o : Direction) (s : State)

@[simp] theorem afterPredict_build : (afterPredict d pc s).build = s.build := rfl
@[simp] theorem afterPredict_cfgFault : (afterPredict d pc s).cfgFault = s.cfgFault := rfl
@[simp] theorem afterPredict_cfgG : (afterPredict d pc s).cfgG = s.cfgG := rfl
@[simp] theorem afterPredict_cfgL : (afterPredict d pc s).cfgL = s.cfgL := rfl
@[simp] theorem afterPredict_cfgP : (afterPredict d pc s).cfgP = s.cfgP := rfl
@[simp] theorem afterPredict_strategy : (afterPredict d pc s).strategy = predictedStrategy s.build pc s.strategy := rfl
@[simp] theorem afterPredict_inputs : (afterPredict d pc s).inputs = s.inputs := rfl
@[simp] theorem afterPredict_draws : (afterPredict d pc s).draws = s.draws := rfl

@[simp] theorem afterTrain_build : (afterTrain pc o s).build = s.build := rfl
@[simp] theorem afterTrain_cfgFault : (afterTrain pc o s).cfgFault = s.cfgFault := rfl
@[simp] theorem afterTrain_cfgG : (afterTrain pc o s).cfgG = s.cfgG := rfl
@[simp] theorem afterTrain_cfgL : (afterTrain pc o s).cfgL = s.cfgL := rfl
@[simp] theorem afterTrain_cfgP : (afterTrain pc o s).cfgP = s.cfgP := rfl
@[simp] theorem afterTrain_strategy : (afterTrain pc o s).strategy =
    trainedStrategy s.build s.cfgG.toNat s.cfgL.toNat s.cfgP.toNat s.draws pc o s.strategy := rfl
@[simp] theorem afterTrain_inputs : (afterTrain pc o s).inputs = s.inputs := rfl
@[simp] theorem afterTrain_draws : (afterTrain pc o s).draws = trainDraws s.draws s.strategy := rfl

end Fields

/-- The row of PREDICT that MODE selects completes with the strategy after it. -/
theorem exec_predictRow (pc : Addr) (s : State) :
    ∃ d, exec (predictRow (mode s) pc) s = .next (afterPredict d pc s) := by
  obtain ⟨_, _, _, _, _, strategy, _⟩ := s
  cases strategy <;> exact ⟨_, rfl⟩

/-- The row of TRAIN that MODE selects completes with the strategy and the draws after it. -/
theorem exec_trainRow (pc : Addr) (o : Direction) (s : State) :
    exec (trainRow (mode s) pc o) s = .next (afterTrain pc o s) := by
  obtain ⟨_, _, _, _, _, strategy, _⟩ := s
  cases strategy <;> rfl

/-! ### What a step does -/

/-- `s` with what the driver presents being `rest`. -/
abbrev State.withInputs (s : State) (rest : List Input) : State := { s with inputs := rest }

/-- Everything a step can do: each case says what was presented and what the next state is. -/
inductive StepEffect (s : State) : State → Prop
  | wait (hi : s.inputs = []) : StepEffect s s
  | rst {rest : List Input} (hi : s.inputs = .rst :: rest) : StepEffect s (powerOn (s.withInputs rest))
  | illegal {w : CmdWord} {rest : List Input} (hi : s.inputs = .command w :: rest)
      (hc : decodeCommand w = Option.none) : StepEffect s (takeIllegalCommand (s.withInputs rest))
  | initOk {w : CmdWord} {rest : List Input} {v : BitVec 8} {g l p : BitVec 6} (hi : s.inputs = .command w :: rest)
      (hc : decodeCommand w = some (.init v g l p)) (hv : configValid s.build v g l p = true) :
      StepEffect s (enterStrategy (freshStrategy v) (latchWidths g l p (s.withInputs rest)))
  | initFault {w : CmdWord} {rest : List Input} {v : BitVec 8} {g l p : BitVec 6}
      (hi : s.inputs = .command w :: rest) (hc : decodeCommand w = some (.init v g l p))
      (hv : configValid s.build v g l p = false) :
      StepEffect s (takeConfigFault (latchWidths g l p (s.withInputs rest)))
  | predict {w : CmdWord} {rest : List Input} {pc : Addr} (d : BitVec 1) (hi : s.inputs = .command w :: rest)
      (hc : decodeCommand w = some (.predict pc)) : StepEffect s (afterPredict d pc (s.withInputs rest))
  | train {w : CmdWord} {rest : List Input} {pc : Addr} {o : Direction} (hi : s.inputs = .command w :: rest)
      (hc : decodeCommand w = some (.train pc o)) : StepEffect s (afterTrain pc o (s.withInputs rest))

theorem step_of_command {s : State} {w : CmdWord} {rest : List Input} {c : Command}
    (hi : s.inputs = .command w :: rest) (hc : decodeCommand w = some c) :
    step s = exec (selectRow (mode (s.withInputs rest)) c) (s.withInputs rest) := by
  simp [step, takeInput_cons s _ rest hi, decode, hc]

theorem step_predict {s : State} {w : CmdWord} {rest : List Input} {pc : Addr}
    (hi : s.inputs = .command w :: rest) (hc : decodeCommand w = some (.predict pc)) :
    ∃ d, step s = .next (afterPredict d pc (s.withInputs rest)) := by
  obtain ⟨d, hd⟩ := exec_predictRow pc (s.withInputs rest)
  exact ⟨d, (step_of_command hi hc).trans hd⟩

theorem step_train {s : State} {w : CmdWord} {rest : List Input} {pc : Addr} {o : Direction}
    (hi : s.inputs = .command w :: rest) (hc : decodeCommand w = some (.train pc o)) :
    step s = .next (afterTrain pc o (s.withInputs rest)) :=
  (step_of_command hi hc).trans (exec_trainRow pc o _)

/-- The inversion of `step` in full: `step_cases` with the selected row's effect in the place of `exec`. -/
theorem stepEffect_of_step {s t : State} (h : step s = .next t) : StepEffect s t := by
  obtain ⟨hi, hs⟩ | ⟨rest, hi, hs⟩ | ⟨w, rest, hi, hc, hs⟩ | ⟨w, rest, c, hi, hc, -⟩ := step_cases s
  · cases hs.symm.trans h; exact .wait hi
  · cases hs.symm.trans h; exact .rst hi
  · cases hs.symm.trans h; exact .illegal hi hc
  · cases c with
    | init v g l p =>
      obtain ⟨hv, rfl⟩ | ⟨hv, rfl⟩ := execInit_spec ((step_of_command hi hc).symm.trans h)
      · exact .initOk hi hc hv
      · exact .initFault hi hc hv
    | predict pc =>
      obtain ⟨d, hd⟩ := step_predict hi hc
      cases hd.symm.trans h; exact .predict d hi hc
    | train pc o =>
      cases (step_train hi hc).symm.trans h; exact .train hi hc

end Sys2Proof.Machine
end

section
/-! PROOFS. The perceptron's rows and sums stay within the bounds of R171 and R179. -/

namespace Sys2Proof.Machine

variable {b : BuildParams}

/-! ### Weights and rows -/

theorem weightMin_le_zero (k : Nat) : weightMin k ≤ 0 := by simp [weightMin]

theorem zero_le_weightMax (k : Nat) : 0 ≤ weightMax k := by
  have : (0 : Int) < 2 ^ (k - 1) := by positivity
  unfold weightMax; omega

theorem wsatInc_mem {k : Nat} {w : Int} (h : weightMin k ≤ w ∧ w ≤ weightMax k) :
    weightMin k ≤ wsatInc k w ∧ wsatInc k w ≤ weightMax k := by
  unfold wsatInc; omega

theorem wsatDec_mem {k : Nat} {w : Int} (h : weightMin k ≤ w ∧ w ≤ weightMax k) :
    weightMin k ≤ wsatDec k w ∧ wsatDec k w ≤ weightMax k := by
  unfold wsatDec; omega

theorem nudgeWeights_mem {k : Nat} (o : Direction) (ph i : Nat) {ws : List Int}
    (h : ∀ w ∈ ws, weightMin k ≤ w ∧ w ≤ weightMax k) :
    ∀ w ∈ nudgeWeights k o ph i ws, weightMin k ≤ w ∧ w ≤ weightMax k := by
  induction ws generalizing i with
  | nil => simp [nudgeWeights]
  | cons w ws ih =>
    obtain ⟨hw, hws⟩ := List.forall_mem_cons.1 h
    refine List.forall_mem_cons.2 ⟨?_, ih (i + 1) hws⟩
    split
    · exact wsatInc_mem hw
    · exact wsatDec_mem hw

theorem zeroRow_ok (b : BuildParams) : RowOk b (zeroRow b.percH) := by
  refine ⟨zeroRow_length _, fun w hw => ?_⟩
  rw [List.eq_of_mem_replicate hw]
  exact ⟨weightMin_le_zero _, zero_le_weightMax _⟩

/-- Training keeps a row's length and its weights in the signed range (R171, R174). -/
theorem nudgeRow_ok (o : Direction) (ph : Nat) {row : List Int} (h : RowOk b row) :
    RowOk b (nudgeRow b.percK o ph row) := by
  obtain ⟨hlen, hrange⟩ := h
  refine ⟨by rw [nudgeRow_length, hlen], ?_⟩
  cases row with
  | nil => simp [nudgeRow]
  | cons bias ws =>
    obtain ⟨hbias, hws⟩ := List.forall_mem_cons.1 hrange
    refine List.forall_mem_cons.2 ⟨?_, nudgeWeights_mem o ph 0 hws⟩
    cases o with
    | taken => exact wsatInc_mem hbias
    | notTaken => exact wsatDec_mem hbias

/-! ### The accumulator's bounds -/

/-- Each history weight adds at most `2 ^ (k - 1)` either way (R179). -/
theorem macSum_bounds {k : Nat} (ph i : Nat) {ws : List Int} (h : ∀ w ∈ ws, weightMin k ≤ w ∧ w ≤ weightMax k) :
    -((ws.length : Int) * 2 ^ (k - 1)) ≤ macSum ph i ws ∧ macSum ph i ws ≤ (ws.length : Int) * 2 ^ (k - 1) := by
  induction ws generalizing i with
  | nil => simp [macSum]
  | cons w ws ih =>
    obtain ⟨hw, hws⟩ := List.forall_mem_cons.1 h
    have ih := ih (i + 1) hws
    rw [macSum, List.length_cons, Nat.cast_add_one, add_mul, one_mul]
    unfold weightMin weightMax at hw
    split <;> omega

/-- The bounds of R179, the same for every history. -/
theorem percOut_bounds (ph : Nat) {row : List Int} (h : RowOk b row) :
    -((b.percH + 1 : Int) * 2 ^ (b.percK - 1)) ≤ percOut row ph ∧
      percOut row ph ≤ (b.percH + 1 : Int) * 2 ^ (b.percK - 1) - 1 := by
  obtain ⟨hlen, hrange⟩ := h
  cases row with
  | nil => simp at hlen
  | cons bias ws =>
    obtain ⟨hbias, hws⟩ := List.forall_mem_cons.1 hrange
    have hsum := macSum_bounds ph 0 hws
    have hlen : ws.length = b.percH := by simpa using hlen
    rw [hlen] at hsum
    rw [percOut, add_mul, one_mul]
    unfold weightMin weightMax at hbias
    omega

theorem signPrediction_eq_taken_iff (out : Int) : signPrediction out = .taken ↔ 0 ≤ out := by
  simp [signPrediction]

theorem needsTrain_iff (b : BuildParams) (out : Int) : needsTrain b out = true ↔ out.natAbs < b.percTheta := by
  simp [needsTrain]

/-! ### The elements of mode CUSTOM -/

variable {st : CustomState}

theorem percRow_ok (pc : Addr) (h : ∀ e ∈ st.pw, RowOk b e.2) : RowOk b (percRow b st pc) := by
  rcases tableRead_mem (zeroRow b.percH) st.pw (percHash b pc) with hz | hm
  · rw [percRow, hz]; exact zeroRow_ok b
  · exact h _ hm

theorem customScratch_ok (pc : Addr) (h : ∀ e ∈ st.pw, RowOk b e.2) : ScratchOk b (customScratch b st pc) := by
  obtain ⟨hlo, hhi⟩ := percOut_bounds st.phist (percRow_ok pc h)
  exact ⟨hlo, hhi, signPrediction_eq_taken_iff _, needsTrain_iff b _⟩

/-- PREDICT in mode CUSTOM keeps R37. -/
theorem customPredicted_ok (pc : Addr) (h : CustomOk b st) : CustomOk b (customPredicted b st pc) := by
  obtain ⟨hwf, hrows, hhist, -⟩ := h
  refine ⟨hwf, hrows, hhist, ?_⟩
  rintro sc ⟨⟩
  exact customScratch_ok pc hrows

/-- TRAIN in mode CUSTOM keeps R37, whatever prediction and flag it reads. -/
theorem customTrained_ok (pred : Direction) (need : Bool) (pc : Addr) (o : Direction) (hS : 1 ≤ b.percS)
    (h : CustomOk b st) : CustomOk b (customTrained b pred need st pc o) := by
  obtain ⟨hwf, hrows, -, hscr⟩ := h
  unfold customTrained
  refine ⟨?_, fun e he => ?_, shiftIn_lt _ _ _, hscr⟩
  · dsimp only
    split
    · exact tableWrite_wf _ hwf (percHash_lt b pc hS)
    · exact hwf
  · dsimp only at he
    split at he
    · rcases mem_tableWrite he with ⟨rfl, -⟩ | he
      · exact nudgeRow_ok o st.phist (percRow_ok pc hrows)
      · exact hrows e he
    · exact hrows e he

end Sys2Proof.Machine
end

section
/-! PROOFS. The invariant of R37 at power-on and over every step. -/

open Sys2Proof Sys2Proof.Machine

namespace Sys2Proof.Machine

/-! ### The active strategy -/

section StrategyInvariant

variable {b : BuildParams} {g l p : Nat}

/-- TRAIN in mode GSHARE keeps R37. -/
theorem gshareTrained_ok {st : GshareState} (pc : Addr) (o : Direction) (h : GshareOk b g st) :
    GshareOk b g (gshareTrained g st pc o) := by
  obtain ⟨hg, hmax, -, hgpht⟩ := h
  exact ⟨hg, hmax, shiftIn_lt _ _ _, tableBump_wf o hgpht (gshareIndex_lt _ _ _)⟩

theorem chooserTrained_wf {st : TournamentState} (pc : Addr) (o : Direction)
    (h : Table.wf (2 ^ g) b.chooserInit st.cht) :
    Table.wf (2 ^ g) b.chooserInit (chooserTrained b g l p st pc o) := by
  unfold chooserTrained
  split
  · exact tableBump_wf _ h (and_mask_lt _ _)
  · split
    · exact tableBump_wf _ h (and_mask_lt _ _)
    · exact h

/-- TRAIN in mode TOURNAMENT keeps R37. -/
theorem tournamentTrained_ok {st : TournamentState} (pc : Addr) (o : Direction) (h : TournamentOk b g l p st) :
    TournamentOk b g l p (tournamentTrained b g l p st pc o) := by
  obtain ⟨hg, hl, hp, -, hgpht, hcht, hlht, hhist, hlpht⟩ := h
  refine ⟨hg, hl, hp, shiftIn_lt _ _ _, tableBump_wf o hgpht (globalIndex_lt _ _ _ _), chooserTrained_wf pc o hcht,
    tableWrite_wf _ hlht (and_mask_lt _ _), fun e he => ?_, tableBump_wf o hlpht (and_mask_lt _ _)⟩
  rcases mem_tableWrite he with ⟨rfl, -⟩ | he
  · exact shiftIn_lt _ _ _
  · exact hhist e he

theorem predictedStrategy_ok (pc : Addr) {st : Strategy} (h : StrategyOk b g l p st) :
    StrategyOk b g l p (predictedStrategy b pc st) := by
  cases st with
  | custom st => exact customPredicted_ok pc h
  | none | static | gshare | tournament => exact h

theorem trainedStrategy_ok (n : Nat) (pc : Addr) (o : Direction) (hS : 1 ≤ b.percS) {st : Strategy}
    (h : StrategyOk b g l p st) : StrategyOk b g l p (trainedStrategy b g l p n pc o st) := by
  cases st with
  | none | static => exact h
  | gshare st => exact gshareTrained_ok pc o h
  | tournament st => exact tournamentTrained_ok pc o h
  | custom st => exact customTrained_ok _ _ pc o hS h

end StrategyInvariant

/-! ### INIT -/

theorem widthOk_iff {b : BuildParams} {w : BitVec 6} : widthOk b w = true ↔ 1 ≤ w.toNat ∧ w.toNat ≤ b.maxW := by
  simp [widthOk]

/-- A valid INIT builds a strategy at legal widths with every history and every table at its reset value (R36, R196). -/
theorem freshStrategy_ok {b : BuildParams} {v : BitVec 8} {g l p : BitVec 6} (h : configValid b v g l p = true) :
    freshStrategy v ≠ .none ∧ StrategyOk b g.toNat l.toNat p.toNat (freshStrategy v) := by
  simp only [configValid, Bool.or_eq_true, Bool.and_eq_true, beq_iff_eq, widthOk_iff] at h
  obtain ((rfl | ⟨rfl, hg⟩) | ⟨⟨⟨rfl, hg⟩, hl⟩, hp⟩) | rfl := h
  · exact ⟨Strategy.noConfusion, trivial⟩
  · exact ⟨Strategy.noConfusion, hg.1, hg.2, Nat.two_pow_pos _, tableWf_nil _ _⟩
  · exact ⟨Strategy.noConfusion, hg, hl, hp, Nat.two_pow_pos _, tableWf_nil _ _, tableWf_nil _ _, tableWf_nil _ _,
      by simp, tableWf_nil _ _⟩
  · exact ⟨Strategy.noConfusion, tableWf_nil _ _, by simp, Nat.two_pow_pos _, by simp⟩

/-! ### The state -/

/-- A response keeps the invariant: the port shows the response recorded last. -/
theorem respond_inv {s : State} (r : Status) (d : BitVec 1) (h : s.Inv) : (respond r d s).Inv := by
  obtain ⟨hlegal, hok, hfault, hnone, -⟩ := h
  refine ⟨hlegal, hok, hfault, hnone, ?_⟩
  rintro _ ⟨⟩
  exact List.getLast?_concat

theorem modeOf_eq_none_iff {st : Strategy} : modeOf st = .none ↔ st = .none := by
  cases st <;> simp [modeOf]

/-- An answer with the strategy's elements changed keeps the invariant, if the new ones meet R37 in the same mode. -/
theorem answerWith_inv {s : State} {st : Strategy} (d : BitVec 1) (n : Nat) (h : s.Inv)
    (hok : StrategyOk s.build s.cfgG.toNat s.cfgL.toNat s.cfgP.toNat st) (hmode : modeOf st = modeOf s.strategy) :
    (answerWith d st { s with draws := n }).Inv := by
  obtain ⟨hlegal, -, hfault, hzero, hrsp⟩ := h
  have hnone : st = .none ↔ s.strategy = .none := by rw [← modeOf_eq_none_iff, hmode, modeOf_eq_none_iff]
  exact respond_inv _ _ ⟨hlegal, hok, fun hf => hnone.2 (hfault hf), fun hs => hzero (hnone.1 hs), hrsp⟩

theorem afterPredict_inv {s : State} (d : BitVec 1) (pc : Addr) (h : s.Inv) : (afterPredict d pc s).Inv := by
  obtain ⟨-, hok, -⟩ := id h
  exact answerWith_inv d s.draws h (predictedStrategy_ok pc hok) (modeOf_predictedStrategy _ _ _)

theorem afterTrain_inv {s : State} (pc : Addr) (o : Direction) (h : s.Inv) : (afterTrain pc o s).Inv := by
  obtain ⟨⟨hS, -⟩, hok, -⟩ := id h
  exact answerWith_inv _ _ h (trainedStrategy_ok _ pc o hS hok) (modeOf_trainedStrategy _ _ _ _ _ _ _ _)

theorem powerOn_inv {s : State} (hlegal : s.build.Legal) : (powerOn s).Inv :=
  ⟨hlegal, trivial, fun _ => rfl, fun _ _ => ⟨rfl, rfl, rfl⟩, by simp⟩

/-- A successful INIT meets the invariant afresh (R195). -/
theorem enterStrategy_inv {s : State} {v : BitVec 8} {g l p : BitVec 6} (h : s.Inv)
    (hv : configValid s.build v g l p = true) : (enterStrategy (freshStrategy v) (latchWidths g l p s)).Inv := by
  obtain ⟨hlegal, -, -, -, hrsp⟩ := h
  obtain ⟨hne, hok⟩ := freshStrategy_ok hv
  exact respond_inv _ _ ⟨hlegal, hok, Bool.noConfusion, fun hs => absurd hs hne, hrsp⟩

/-- A configuration fault meets the invariant: MODE is NONE, and the widths may be any since `CFG_FAULT` is 1 (R217). -/
theorem takeConfigFault_inv {s : State} (g l p : BitVec 6) (h : s.Inv) :
    (takeConfigFault (latchWidths g l p s)).Inv := by
  obtain ⟨hlegal, -, -, -, hrsp⟩ := h
  exact respond_inv _ _ ⟨hlegal, trivial, fun _ => rfl, fun _ hf => absurd hf Bool.noConfusion, hrsp⟩

end Sys2Proof.Machine

namespace Sys2Proof.Proofs

/-- Settles O9: the constraints of R6 hold of `Config.build`, and the rest is the power-on values. -/
theorem invariantAtReset : Obligations.InvariantAtReset := by
  unfold Obligations.InvariantAtReset
  have hlegal : Config.build.Legal := ⟨Nat.le_add_left _ _, Nat.le_add_left _ _, by decide, by decide⟩
  exact powerOn_inv (s := State.reset) hlegal

/-- Settles O10, by what the step can do: each operation of the unit keeps the invariant, and none reads `inputs`. -/
theorem everyStepKeepsTheInvariant : Obligations.EveryStepKeepsTheInvariant := by
  unfold Obligations.EveryStepKeepsTheInvariant
  intro s t h hstep
  have hrest (rest : List Input) : (s.withInputs rest).Inv := h
  cases stepEffect_of_step hstep with
  | wait => exact h
  | rst => exact powerOn_inv h.1
  | illegal => exact respond_inv _ _ (hrest _)
  | initOk _ _ hv => exact enterStrategy_inv (hrest _) hv
  | initFault => exact takeConfigFault_inv _ _ _ (hrest _)
  | predict d => exact afterPredict_inv d _ (hrest _)
  | train => exact afterTrain_inv _ _ (hrest _)

end Sys2Proof.Proofs
end

section
/-! PROOFS. The caller contract of R233 as an invariant of one step: no TRAIN reads scratch state that holds no value. -/

open Sys2Proof Sys2Proof.Machine

namespace Sys2Proof.Machine

/-! ### The contract on the inputs -/

theorem obeysContract_rst {ph : Phase} {rest : List Input} (h : obeysContract ph (.rst :: rest) = true) :
    obeysContract .beforeInit rest = true := by
  cases ph <;> exact h

theorem obeysContract_illegal {ph : Phase} {w : CmdWord} {rest : List Input} (hc : decodeCommand w = Option.none)
    (h : obeysContract ph (.command w :: rest) = true) : obeysContract ph rest = true := by
  cases ph <;> simpa [obeysContract, hc] using h

/-- A command under the contract leads to a next phase, from which the rest obeys it. -/
theorem obeysContract_command {ph : Phase} {w : CmdWord} {rest : List Input} {c : Command}
    (hc : decodeCommand w = some c) (h : obeysContract ph (.command w :: rest) = true) :
    ∃ ph', contractNext ph c = some ph' ∧ obeysContract ph' rest = true := by
  cases hn : contractNext ph c with
  | none => cases ph <;> simp [obeysContract, hc, hn] at h
  | some ph' =>
    refine ⟨ph', rfl, ?_⟩
    cases ph <;> simpa [obeysContract, hc, hn] using h

theorem contractNext_init {ph ph' : Phase} {v : BitVec 8} {g l p : BitVec 6}
    (h : contractNext ph (.init v g l p) = some ph') : ph' = .ready := by
  cases ph <;> simp_all [contractNext]

theorem contractNext_predict {ph ph' : Phase} {pc : Addr} (h : contractNext ph (.predict pc) = some ph') :
    ph' = .awaiting pc := by
  cases ph <;> simp_all [contractNext]

/-- A TRAIN is allowed only where it is owed. -/
theorem contractNext_train {ph ph' : Phase} {pc : Addr} {o : Direction}
    (h : contractNext ph (.train pc o) = some ph') : ph = .awaiting pc ∧ ph' = .ready := by
  cases ph <;> simp_all [contractNext]

/-! ### The scratch state -/

/-- PREDICT in mode CUSTOM leaves a value in the scratch state (R33, R173). -/
theorem scratch_of_predictedStrategy {b : BuildParams} {pc : Addr} {st : Strategy} {st' : CustomState}
    (h : predictedStrategy b pc st = .custom st') : st'.scratch ≠ Option.none := by
  cases st with
  | custom st => cases h; exact Option.some_ne_none _
  | none | static | gshare | tournament => cases h

/-- TRAIN makes no free draw where the scratch state holds a value. -/
theorem trainDraws_eq {n : Nat} {st : Strategy} (h : ∀ st', st = .custom st' → st'.scratch ≠ Option.none) :
    trainDraws n st = n := by
  cases st with
  | custom st =>
    obtain ⟨sc, hsc⟩ := Option.ne_none_iff_exists'.1 (h st rfl)
    simp [trainDraws, drawsAfter, hsc]
  | none | static | gshare | tournament => rfl

/-! ### The invariant -/

/-- With no TRAIN owed and an INIT issued, the invariant asks only that the inputs obey the contract. -/
theorem contractInv_ready {s : State} (h : obeysContract .ready s.inputs = true) : ContractInv .ready s :=
  ⟨h, Phase.noConfusion, fun _ => Phase.noConfusion⟩

/-- The invariant in the same phase of a state that has the unit's elements and another list of inputs. -/
theorem contractInv_of_unit_eq {ph : Phase} {s t : State} (h : ContractInv ph s)
    (hin : obeysContract ph t.inputs = true) (hst : t.strategy = s.strategy) (hf : t.cfgFault = s.cfgFault)
    (hg : t.cfgG = s.cfgG) (hl : t.cfgL = s.cfgL) (hp : t.cfgP = s.cfgP) : ContractInv ph t := by
  obtain ⟨-, hzero, hscr⟩ := h
  refine ⟨hin, fun hph => ?_, ?_⟩
  · rw [AtPowerOn, hst, hf, hg, hl, hp]; exact hzero hph
  · rw [hst]; exact hscr

end Sys2Proof.Machine

namespace Sys2Proof.Proofs

/-- Settles O60, by what the step can do: the contract names the phase each command leads to; PREDICT leaves a value
in the scratch state, and TRAIN comes only where it is owed, so it finds that value. -/
theorem everyStepKeepsTheContractInvariant : Obligations.EveryStepKeepsTheContractInvariant := by
  unfold Obligations.EveryStepKeepsTheContractInvariant
  intro ph s t h hstep
  obtain ⟨hin, hzero, hscr⟩ := id h
  cases stepEffect_of_step hstep with
  | wait hi => simp only [hi]; exact ⟨trivial, h⟩
  | rst hi =>
    simp only [hi] at hin ⊢
    exact ⟨rfl, obeysContract_rst hin, fun _ => ⟨rfl, rfl, rfl, rfl, rfl⟩, fun _ => Phase.noConfusion⟩
  | illegal hi hc =>
    simp only [hi, hc] at hin ⊢
    exact ⟨rfl, contractInv_of_unit_eq h (obeysContract_illegal hc hin) rfl rfl rfl rfl rfl⟩
  | initOk hi hc | initFault hi hc =>
    simp only [hi, hc] at hin ⊢
    obtain ⟨ph', hn, hrest⟩ := obeysContract_command hc hin
    cases contractNext_init hn
    exact ⟨rfl, .ready, hn, contractInv_ready hrest⟩
  | predict d hi hc =>
    simp only [hi, hc] at hin ⊢
    obtain ⟨ph', hn, hrest⟩ := obeysContract_command hc hin
    cases contractNext_predict hn
    exact ⟨rfl, _, hn, hrest, Phase.noConfusion, fun _ _ _ => scratch_of_predictedStrategy⟩
  | train hi hc =>
    simp only [hi, hc] at hin ⊢
    obtain ⟨ph', hn, hrest⟩ := obeysContract_command hc hin
    obtain ⟨rfl, rfl⟩ := contractNext_train hn
    exact ⟨trainDraws_eq (hscr _ rfl), .ready, hn, contractInv_ready hrest⟩

end Sys2Proof.Proofs
end

section
/-! PROOFS. What a step writes of the configuration and of the scratch state (10_state R23, R24, R25, R33). -/

open Sys2Proof Sys2Proof.Machine

namespace Sys2Proof.Machine

/-- TRAIN leaves the scratch state as it is (R33, R174). -/
theorem scratch_of_trainedStrategy {b : BuildParams} {g l p n : Nat} {pc : Addr} {o : Direction} {st st' : CustomState}
    (h : trainedStrategy b g l p n pc o (.custom st) = .custom st') : st'.scratch = st.scratch := by
  cases h; rfl

end Sys2Proof.Machine

namespace Sys2Proof.Proofs

/-- Settles O13: the two inputs that write the configuration are excluded, and what is left changes the strategy within
its mode at most. -/
theorem configurationChangesOnlyAtInitOrReset : Obligations.ConfigurationChangesOnlyAtInitOrReset := by
  unfold Obligations.ConfigurationChangesOnlyAtInitOrReset
  intro s t hstep hrst hinit
  cases stepEffect_of_step hstep with
  | wait | illegal => exact ⟨rfl, rfl, rfl, rfl, rfl⟩
  | rst hi => exact absurd hi (hrst _)
  | initOk hi hc | initFault hi hc => exact absurd hc (hinit _ _ _ _ _ _ hi)
  | predict => exact ⟨modeOf_predictedStrategy _ _ _, rfl, rfl, rfl, rfl⟩
  | train => exact ⟨modeOf_trainedStrategy _ _ _ _ _ _ _ _, rfl, rfl, rfl, rfl⟩

/-- Settles O14, by what the step can do: `rst` and INIT write `CFG_FAULT`, and nothing else does. -/
theorem faultOutputFollowsInit : Obligations.FaultOutputFollowsInit := by
  unfold Obligations.FaultOutputFollowsInit
  intro s t hstep
  cases stepEffect_of_step hstep with
  | wait hi | rst hi => simp [hi, faultO]
  | illegal hi hc => simp [hi, hc, faultO]
  | initOk hi hc hv | initFault hi hc hv => simp [hi, hc, hv, faultO]
  | predict d hi hc => simp [hi, hc, faultO]
  | train hi hc => simp [hi, hc, faultO]

/-- Settles O17: PREDICT and INIT are excluded, `rst` leaves mode CUSTOM, and TRAIN keeps the scratch state. -/
theorem scratchIsWrittenOnlyByPredict : Obligations.ScratchIsWrittenOnlyByPredict := by
  unfold Obligations.ScratchIsWrittenOnlyByPredict
  intro s t st st' hstep hs ht hcmd
  cases stepEffect_of_step hstep with
  | wait | illegal => cases hs.symm.trans ht; rfl
  | rst => cases ht
  | initOk hi hc | initFault hi hc =>
    obtain ⟨-, hinit⟩ := hcmd _ _ hi
    exact absurd hc (hinit _ _ _ _)
  | predict d hi hc =>
    obtain ⟨hpredict, -⟩ := hcmd _ _ hi
    exact absurd hc (hpredict _)
  | train =>
    rw [afterTrain_strategy, hs] at ht
    exact scratch_of_trainedStrategy ht

end Sys2Proof.Proofs
end

section
/-! PROOFS. Decoding the two words of a branch event (30_encoding R83, R84, R90). -/

namespace Sys2Proof

variable (h : BitVec 4) (pc : Addr) (o : Direction)

theorem opField_append : opField (h ++ pc) = h.extractLsb' 2 2 := BitVec.extractLsb'_append_eq_of_le (by decide)

theorem pcField_append : pcField (h ++ pc) = pc := BitVec.extractLsb'_append_eq_right

theorem reservedPredict_append : reservedPredict (h ++ pc) = h.extractLsb' 0 2 :=
  BitVec.extractLsb'_append_eq_of_le (by decide)

theorem reservedTrain_append : reservedTrain (h ++ pc) = h.extractLsb' 1 1 :=
  BitVec.extractLsb'_append_eq_of_le (by decide)

/-- Bit 32 of format T, the outcome (R84). -/
theorem outcomeBit_append : BitVec.extractLsb' 32 1 (h ++ pc) = h.extractLsb' 0 1 :=
  BitVec.extractLsb'_append_eq_of_le (by decide)

theorem decodeCommand_encodeCommand_predict : decodeCommand (encodeCommand (.predict pc)) = some (.predict pc) := by
  rw [show encodeCommand (.predict pc) = 0b0100#4 ++ pc from rfl, decodeCommand, opField_append,
    reservedPredict_append, pcField_append]
  simp

theorem decodeCommand_encodeCommand_train :
    decodeCommand (encodeCommand (.train pc o)) = some (.train pc o) := by
  have hw : encodeCommand (.train pc o) = (0b10#2 ++ 0#1 ++ bitOf o : BitVec 4) ++ pc := rfl
  rw [hw, decodeCommand, opField_append, reservedTrain_append, pcField_append, outcomeBit_append]
  cases o <;> simp [bitOf, dirOf]

end Sys2Proof
end

section
/-! PROOFS. Histories over whole branch sequences: each history register holds the last outcomes of the branches that
shift into it (40 R112; 10_state R26, R29, R32). -/

open Sys2Proof Sys2Proof.Machine

namespace Sys2Proof.Machine

/-! ### The law of one history register -/

/-- `shift_in` as arithmetic (R111). -/
theorem shiftIn_eq_mod (h w : Nat) (o : Direction) : shiftIn h (bit o) w = (2 * h + bit o) % 2 ^ w := by
  have hb : bit o < 2 ^ 1 := Nat.lt_succ_of_le (bit_le_one o)
  rw [shiftIn, and_mask, ← Nat.shiftLeft_add_eq_or_of_lt hb, Nat.shiftLeft_eq, pow_one, mul_comm]

theorem lt_two_of_mem_map_bit {os : List Direction} : ∀ x ∈ os.map bit, x < 2 := by
  intro x hx
  obtain ⟨o, -, rfl⟩ := List.mem_map.1 hx
  exact Nat.lt_succ_of_le (bit_le_one o)

/-- The sum of R112 over outcomes given newest first is a numeral in base 2. -/
theorem sum_bit_eq_ofDigits (w : Nat) (os : List Direction) :
    ∑ j ∈ Finset.range (min os.length w), bit (os.getD j .notTaken) * 2 ^ j =
      Nat.ofDigits 2 ((os.map bit).take w) := by
  induction os generalizing w with
  | nil => simp
  | cons o os ih =>
    cases w with
    | zero => simp
    | succ w =>
      rw [List.length_cons, Nat.add_min_add_right, Finset.sum_range_succ', List.map_cons, List.take_succ_cons,
        Nat.ofDigits_cons, ← ih, Finset.mul_sum, add_comm]
      congr 1
      · simp
      · refine Finset.sum_congr rfl fun j _ => ?_
        rw [List.getD_cons_succ, pow_succ]; ring

/-- The last outcomes are all of them as one number, cut to the register's width. -/
theorem lastOutcomes_eq_mod (w : Nat) (os : List Direction) :
    lastOutcomes w os = Nat.ofDigits 2 (os.reverse.map bit) % 2 ^ w := by
  rw [Nat.ofDigits_mod_pow_eq_ofDigits_take w two_pos _ lt_two_of_mem_map_bit, ← sum_bit_eq_ofDigits,
    List.length_reverse, lastOutcomes]

@[simp] theorem lastOutcomes_nil (w : Nat) : lastOutcomes w [] = 0 := by simp [lastOutcomes]

/-- One more outcome is one more shift: the step of R112. -/
theorem lastOutcomes_concat (w : Nat) (os : List Direction) (o : Direction) :
    lastOutcomes w (os ++ [o]) = shiftIn (lastOutcomes w os) (bit o) w := by
  rw [shiftIn_eq_mod, lastOutcomes_eq_mod, lastOutcomes_eq_mod, List.reverse_append, List.reverse_singleton,
    List.singleton_append, List.map_cons, Nat.ofDigits_cons, add_comm]
  simp [Nat.add_mod, Nat.mul_mod]

/-! ### Runs over branch events -/

theorem run_of_step {s t : State} (h : step s = .next t) (n : Nat) :
    Sys2Proof.core.run (n + 1) s = Sys2Proof.core.run n t := by
  have h : Sys2Proof.core.step s = .next t := h
  simp only [Host.Core.run, h]

/-- `t` has the build parameters and the widths of `s`. -/
def SameConfig (s t : State) : Prop :=
  t.build = s.build ∧ t.cfgG = s.cfgG ∧ t.cfgL = s.cfgL ∧ t.cfgP = s.cfgP

theorem sameConfig_refl (s : State) : SameConfig s s := ⟨rfl, rfl, rfl, rfl⟩

theorem SameConfig.trans {s t u : State} (hst : SameConfig s t) (htu : SameConfig t u) : SameConfig s u := by
  obtain ⟨hb, hg, hl, hp⟩ := hst
  obtain ⟨hb', hg', hl', hp'⟩ := htu
  exact ⟨hb'.trans hb, hg'.trans hg, hl'.trans hl, hp'.trans hp⟩

/-- One branch event is two steps: the strategy predicts, then trains, with some count `n` of free draws before. -/
theorem run_branchEvent {s : State} {pc : Addr} {o : Direction} {es : List (Addr × Direction)}
    (hi : s.inputs = branchInputs ((pc, o) :: es)) :
    ∃ t n, (∀ k, Sys2Proof.core.run (k + 2) s = Sys2Proof.core.run k t) ∧ SameConfig s t ∧
      t.inputs = branchInputs es ∧
      t.strategy = trainedStrategy s.build s.cfgG.toNat s.cfgL.toNat s.cfgP.toNat n pc o
        (predictedStrategy s.build pc s.strategy) := by
  obtain ⟨d, hpredict⟩ := step_predict hi (decodeCommand_encodeCommand_predict pc)
  have htrain := step_train (rest := branchInputs es)
    (show (afterPredict d pc (s.withInputs _)).inputs = _ from rfl) (decodeCommand_encodeCommand_train pc o)
  exact ⟨_, s.draws, fun k => (run_of_step hpredict (k + 1)).trans (run_of_step htrain k), sameConfig_refl s, rfl, rfl⟩

/-- TRAIN of one branch event turns what holds of the strategy after the events `past` into what holds after one more,
in any state of the configuration of `s₀` and whatever free values it draws. -/
def TrainExtends (s₀ : State) (R : List (Addr × Direction) → Strategy → Prop) : Prop :=
  ∀ past pc o n st, R past st → R (past ++ [(pc, o)])
    (trainedStrategy s₀.build s₀.cfgG.toNat s₀.cfgL.toNat s₀.cfgP.toNat n pc o st)

/-- A relation between the branch events so far and the active strategy that PREDICT keeps and TRAIN extends holds
after every run over branch events, and the run completes (R90, R237). -/
theorem run_branchInputs {s₀ : State} {R : List (Addr × Direction) → Strategy → Prop}
    (hpredict : ∀ past pc st, R past st → R past (predictedStrategy s₀.build pc st)) (htrain : TrainExtends s₀ R)
    (es past : List (Addr × Direction)) (s : State) (hcfg : SameConfig s₀ s) (hi : s.inputs = branchInputs es)
    (hR : R past s.strategy) :
    ∃ t, Sys2Proof.core.run (2 * es.length) s = .next t ∧ R (past ++ es) t.strategy := by
  induction es generalizing past s with
  | nil => exact ⟨s, rfl, by simpa using hR⟩
  | cons e es ih =>
    obtain ⟨pc, o⟩ := e
    obtain ⟨t, n, hrun, hst, hit, hstrat⟩ := run_branchEvent hi
    have hRt : R (past ++ [(pc, o)]) t.strategy := by
      obtain ⟨hb, hg, hl, hp⟩ := hcfg
      rw [hstrat, hb, hg, hl, hp]
      exact htrain past pc o n _ (hpredict past pc _ hR)
    obtain ⟨u, hrunu, hRu⟩ := ih _ t (hcfg.trans hst) hit hRt
    exact ⟨u, (hrun _).trans hrunu, by simpa using hRu⟩

/-! ### The three history registers -/

/-- GHR holds the last `G` outcomes of the events `past` (R26). -/
def GlobalHistoryOf (g : Nat) (past : List (Addr × Direction)) (st : Strategy) : Prop :=
  globalHistory st = some (lastOutcomes g (past.map (fun e => e.2)))

/-- Every entry of LHT holds the last `L` outcomes of those of `past` whose address it stands for (R29). -/
def LocalHistoriesOf (l p : Nat) (past : List (Addr × Direction)) (st : Strategy) : Prop :=
  ∃ ts, st = .tournament ts ∧ ∀ i, tableRead 0 ts.lht i =
    lastOutcomes l ((past.filter (fun e => e.1.toNat % 2 ^ p == i)).map (fun e => e.2))

/-- PHIST holds the last `PERC_H` outcomes of the events `past` (R32). -/
def PerceptronHistoryOf (h : Nat) (past : List (Addr × Direction)) (st : Strategy) : Prop :=
  ∃ cs, st = .custom cs ∧ cs.phist = lastOutcomes h (past.map (fun e => e.2))

theorem globalHistory_predictedStrategy (b : BuildParams) (pc : Addr) (st : Strategy) :
    globalHistory (predictedStrategy b pc st) = globalHistory st := by
  cases st <;> rfl

theorem globalHistory_trainedStrategy (b : BuildParams) (g l p n : Nat) (pc : Addr) (o : Direction) (st : Strategy) :
    globalHistory (trainedStrategy b g l p n pc o st) = (globalHistory st).map (fun h => shiftIn h (bit o) g) := by
  cases st <;> rfl

theorem globalHistoryOf_trainExtends (s₀ : State) : TrainExtends s₀ (GlobalHistoryOf s₀.cfgG.toNat) := by
  intro past pc o n st h
  rw [GlobalHistoryOf, globalHistory_trainedStrategy, h, List.map_append, List.map_singleton, lastOutcomes_concat,
    Option.map_some]

theorem localHistoriesOf_predict {b : BuildParams} {l p : Nat} (past : List (Addr × Direction)) (pc : Addr)
    (st : Strategy) (h : LocalHistoriesOf l p past st) : LocalHistoriesOf l p past (predictedStrategy b pc st) := by
  obtain ⟨ts, rfl, hlht⟩ := h
  exact ⟨ts, rfl, hlht⟩

/-- TRAIN shifts into the one entry its address stands for (R154). -/
theorem localHistoriesOf_trainExtends (s₀ : State) :
    TrainExtends s₀ (LocalHistoriesOf s₀.cfgL.toNat s₀.cfgP.toNat) := by
  rintro past pc o n _ ⟨ts, rfl, hlht⟩
  refine ⟨_, rfl, fun i => ?_⟩
  rw [List.filter_append, List.map_append]
  dsimp only [tournamentTrained]
  rw [tableRead_write, localHistory, localIndex, and_mask, hlht, hlht]
  split
  · next hi => simp [← hi, lastOutcomes_concat]
  · next hi => simp [Ne.symm hi]

theorem perceptronHistoryOf_predict {b : BuildParams} {h : Nat} (past : List (Addr × Direction)) (pc : Addr)
    (st : Strategy) (hst : PerceptronHistoryOf h past st) :
    PerceptronHistoryOf h past (predictedStrategy b pc st) := by
  obtain ⟨cs, rfl, hph⟩ := hst
  exact ⟨_, rfl, hph⟩

/-- TRAIN always shifts PHIST, whether or not it adjusts the weights (R175). -/
theorem perceptronHistoryOf_trainExtends (s₀ : State) : TrainExtends s₀ (PerceptronHistoryOf s₀.build.percH) := by
  rintro past pc o n _ ⟨cs, rfl, hph⟩
  refine ⟨_, rfl, ?_⟩
  rw [List.map_append, List.map_singleton, lastOutcomes_concat, ← hph]
  rfl

end Sys2Proof.Machine

namespace Sys2Proof.Proofs

/-- Settles O54, by the history law carried along the run. -/
theorem globalHistoryHoldsTheLastOutcomes : Obligations.GlobalHistoryHoldsTheLastOutcomes := by
  unfold Obligations.GlobalHistoryHoldsTheLastOutcomes
  intro es s hzero hi
  exact run_branchInputs (R := GlobalHistoryOf s.cfgG.toNat)
    (fun _ _ _ h => (globalHistory_predictedStrategy _ _ _).trans h) (globalHistoryOf_trainExtends s) es [] s
    (sameConfig_refl s) hi (by simpa [GlobalHistoryOf] using hzero)

/-- Settles O55, by the history law of each entry of LHT carried along the run. -/
theorem localHistoriesHoldTheLastOutcomes : Obligations.LocalHistoriesHoldTheLastOutcomes := by
  unfold Obligations.LocalHistoriesHoldTheLastOutcomes
  intro es s st hs hzero hi
  obtain ⟨t, hrun, st', hst', hlht⟩ := run_branchInputs localHistoriesOf_predict (localHistoriesOf_trainExtends s) es []
    s (sameConfig_refl s) hi ⟨st, hs, by simpa using hzero⟩
  exact ⟨t, st', hrun, hst', hlht⟩

/-- Settles O56, by the history law of PHIST carried along the run. -/
theorem perceptronHistoryHoldsTheLastOutcomes : Obligations.PerceptronHistoryHoldsTheLastOutcomes := by
  unfold Obligations.PerceptronHistoryHoldsTheLastOutcomes
  intro es s st hs hzero hi
  obtain ⟨t, hrun, st', hst', hph⟩ := run_branchInputs perceptronHistoryOf_predict (perceptronHistoryOf_trainExtends s)
    es [] s (sameConfig_refl s) hi ⟨st, hs, by simpa using hzero⟩
  exact ⟨t, st', hrun, hst', hph⟩

end Sys2Proof.Proofs
end

section
/-! PROOFS. What a canonical table lists and where the indices point (20_memory R61). -/

open Sys2Proof Sys2Proof.Machine

namespace Sys2Proof.Machine

variable {α : Type}

/-- With rising indices every listed entry is read: no later entry hides it and no earlier one has its index. -/
theorem tableRead_of_mem {d : α} {t : Table α} (ht : t.Pairwise (fun e f => e.1 < f.1)) {e : Nat × α} (he : e ∈ t) :
    tableRead d t e.1 = e.2 := by
  induction t with
  | nil => cases he
  | cons f t ih =>
    obtain ⟨hf, ht⟩ := List.pairwise_cons.1 ht
    rw [tableRead_cons]
    obtain rfl | he := List.mem_cons.1 he
    · rw [if_pos rfl]
    · rw [if_neg (hf e he).ne', ih ht he]

/-- A canonical table lists exactly the entries it reads that differ from the initial value. -/
theorem mem_table_iff {size : Nat} {d : α} {t : Table α} (ht : Table.wf size d t) (e : Nat × α) :
    e ∈ t ↔ tableRead d t e.1 = e.2 ∧ e.2 ≠ d := by
  obtain ⟨hrising, hentries⟩ := ht
  constructor
  · exact fun he => ⟨tableRead_of_mem hrising he, (hentries e he).2⟩
  · rintro ⟨hread, hne⟩
    obtain hd | hmem := tableRead_mem d t e.1
    · exact absurd (hread.symm.trans hd) hne
    · rwa [hread] at hmem

/-- The canonical form is unique: rising lists of the same entries are equal. -/
theorem table_ext {size : Nat} {d : α} {t t' : Table α} (ht : Table.wf size d t) (ht' : Table.wf size d t')
    (h : ∀ i, tableRead d t i = tableRead d t' i) : t = t' := by
  have : Std.Irrefl (fun e f : Nat × α => e.1 < f.1) := ⟨fun e => lt_irrefl e.1⟩
  have : Std.Antisymm (fun e f : Nat × α => e.1 < f.1) := ⟨fun _ _ hef hfe => absurd hfe hef.asymm⟩
  exact ht.1.eq_of_mem_iff ht'.1 fun e => by rw [mem_table_iff ht, mem_table_iff ht', h]

end Sys2Proof.Machine

namespace Sys2Proof.Proofs

/-- Settles O26, by the uniqueness of the canonical form. -/
theorem canonicalTablesAreDeterminedByTheirEntries : Obligations.CanonicalTablesAreDeterminedByTheirEntries := by
  unfold Obligations.CanonicalTablesAreDeterminedByTheirEntries
  intro size d t t' ht ht' h
  exact table_ext ht ht' h

/-- Settles O27: every table index is masked to its width, and the perceptron slot is a remainder by `PERC_S ≥ 1`. -/
theorem everyIndexIsInRange : Obligations.EveryIndexIsInRange := by
  unfold Obligations.EveryIndexIsInRange
  intro b h g l p pc hlegal
  obtain ⟨hpercS, -⟩ := hlegal
  exact ⟨gshareIndex_lt h pc g, globalIndex_lt b h pc g, and_mask_lt h g, and_mask_lt pc.toNat p, and_mask_lt h l,
    percHash_lt b pc hpercS⟩

end Sys2Proof.Proofs
end

section
/-! PROOFS. PREDICT leaves the learned elements alone: outside mode CUSTOM it writes none, and in mode CUSTOM only the
scratch state, which its own sum does not read (10_state R65, 43 R173). -/

open Sys2Proof Sys2Proof.Machine

namespace Sys2Proof.Machine

theorem predictedStrategy_of_ne_custom (b : BuildParams) (pc : Addr) {st : Strategy} (h : modeOf st ≠ .custom) :
    predictedStrategy b pc st = st := by
  cases st with
  | custom st => exact absurd rfl h
  | none | static | gshare | tournament => rfl

/-- The sum reads the row and the history, which PREDICT leaves as they are. -/
theorem customScratch_customPredicted (b : BuildParams) (st : CustomState) (pc pc' : Addr) :
    customScratch b (customPredicted b st pc') pc = customScratch b st pc := rfl

theorem customPredicted_idem (b : BuildParams) (st : CustomState) (pc : Addr) :
    customPredicted b (customPredicted b st pc) pc = customPredicted b st pc := rfl

end Sys2Proof.Machine

namespace Sys2Proof.Proofs

/-- Settles O16, by the effect of PREDICT on the active strategy. -/
theorem predictOutsideCustomChangesNothing : Obligations.PredictOutsideCustomChangesNothing := by
  unfold Obligations.PredictOutsideCustomChangesNothing
  intro s w rest pc hi hc hmode
  obtain ⟨d, hstep⟩ := step_predict hi hc
  refine ⟨d, hstep.trans ?_⟩
  rw [afterPredict, predictedStrategy_of_ne_custom _ _ hmode]
  rfl

/-- Settles O48: the second PREDICT computes the same sum and records it again. -/
theorem predictCustomIsIdempotent : Obligations.PredictCustomIsIdempotent := by
  unfold Obligations.PredictCustomIsIdempotent
  intro s t pc h
  obtain ⟨st, hst, rfl⟩ := execPredictCustom_spec h
  refine ⟨_, execPredictCustom_of_strategy pc (answerWith_strategy _ _ s), ?_, ?_⟩
  · simp [customPredicted_idem]
  · simp [customScratch_customPredicted]

end Sys2Proof.Proofs
end

section
/-! PROOFS. Runs over lists of inputs: each input is taken by one step, each command adds one response, and no step
reads what is presented after its own input (20_memory R68, 70_reset R235, R237). -/

open Sys2Proof Sys2Proof.Machine

namespace Sys2Proof.Machine

variable {s t : State} {rest : List Input}

/-! ### One step -/

theorem step_rst (hi : s.inputs = .rst :: rest) : step s = .next (powerOn (s.withInputs rest)) := by
  simp [step, takeInput_cons s _ rest hi]

theorem step_illegal {w : CmdWord} (hi : s.inputs = .command w :: rest) (hc : decodeCommand w = Option.none) :
    step s = .next (takeIllegalCommand (s.withInputs rest)) := by
  simp [step, takeInput_cons s _ rest hi, decode, hc]

/-- A step takes its input and adds one response for a command, none for `rst` (R9, R230). -/
theorem step_takes_and_responds {i : Input} (hi : s.inputs = i :: rest) (h : step s = .next t) :
    t.inputs = rest ∧ ∃ rs, t.responses = s.responses ++ rs ∧ rs.length = commandCount [i] := by
  cases stepEffect_of_step h with
  | wait hi' => cases hi.symm.trans hi'
  | rst hi' => cases hi.symm.trans hi'; exact ⟨rfl, [], (List.append_nil _).symm, rfl⟩
  | illegal hi' | initOk hi' | initFault hi' | predict _ hi' | train hi' =>
    cases hi.symm.trans hi'; exact ⟨rfl, _, rfl, rfl⟩

/-- A command writes no input and reads none: with other inputs to come it does the same. -/
theorem exec_selectRow_withInputs (c : Command) (later : List Input) (h : exec (selectRow (mode s) c) s = .next t) :
    exec (selectRow (mode s) c) (s.withInputs later) = .next (t.withInputs later) := by
  cases c with
  | init v g l p =>
    obtain ⟨hv, rfl⟩ | ⟨hv, rfl⟩ := execInit_spec h
    · exact if_pos hv
    · exact if_neg (by simp [hv])
  | predict pc =>
    obtain ⟨_, _, _, _, _, strategy, _⟩ := s
    cases strategy with
    | none | static | gshare | tournament | custom => cases h; rfl
  | train pc o =>
    cases (exec_trainRow pc o s).symm.trans h
    exact exec_trainRow pc o (s.withInputs later)

/-- A step depends on its own input only, not on those after it. -/
theorem step_withInputs {i : Input} (later : List Input) (hi : s.inputs = i :: rest) (h : step s = .next t) :
    step (s.withInputs (i :: later)) = .next (t.withInputs later) := by
  cases i with
  | rst => cases (step_rst hi).symm.trans h; exact step_rst (s := s.withInputs _) rfl
  | command w =>
    cases hc : decodeCommand w with
    | none => cases (step_illegal hi hc).symm.trans h; exact step_illegal (s := s.withInputs _) rfl hc
    | some c =>
      exact (step_of_command rfl hc).trans
        (exec_selectRow_withInputs (s := s.withInputs rest) c later ((step_of_command hi hc).symm.trans h))

theorem commandCount_cons (i : Input) (rest : List Input) :
    commandCount (i :: rest) = commandCount [i] + commandCount rest := by
  cases i <;> simp [commandCount, Nat.add_comm]

end Sys2Proof.Machine

namespace Sys2Proof.Proofs

/-- Settles O20, by induction on the inputs of the run: the first step takes one and adds its response. -/
theorem oneResponsePerCommand : Obligations.OneResponsePerCommand := by
  unfold Obligations.OneResponsePerCommand
  intro a b s hi
  induction a generalizing s with
  | nil => exact ⟨s, [], rfl, hi, (List.append_nil _).symm, rfl⟩
  | cons i a ih =>
    obtain ⟨t, hstep⟩ := everyStepCompletes s
    obtain ⟨hit, rs, hrs, hlen⟩ := step_takes_and_responds hi hstep
    obtain ⟨u, rs', hrun, hiu, hrs', hlen'⟩ := ih t hit
    refine ⟨u, rs ++ rs', (run_of_step hstep a.length).trans hrun, hiu, ?_, ?_⟩
    · rw [hrs', hrs, List.append_assoc]
    · rw [List.length_append, commandCount_cons, hlen, hlen']

/-- Settles O21, by induction on the inputs of the run: the first step does not read the later inputs and leaves all
but its own. -/
theorem laterInputsDoNotMatter : Obligations.LaterInputsDoNotMatter := by
  unfold Obligations.LaterInputsDoNotMatter
  intro a b s t hi hrun
  induction a generalizing s with
  | nil => cases hrun; rfl
  | cons i a ih =>
    obtain ⟨u, hstep⟩ := everyStepCompletes s
    obtain ⟨hiu, -⟩ := step_takes_and_responds hi hstep
    have hrest := ih u hiu ((run_of_step hstep a.length).symm.trans hrun)
    exact (run_of_step (step_withInputs (a ++ b) hi hstep) a.length).trans hrest

end Sys2Proof.Proofs
end

section
/-! PROOFS. The command word: the decoder and the encoder are inverse to each other, what makes a word illegal, and
the match and mask of each format (30_encoding R81 to R88, R91). -/

open Sys2Proof Sys2Proof.Machine

namespace Sys2Proof

/-! ### Decoding an encoded command -/

section InitWord

variable (h : BitVec 10) (p l g : BitVec 6) (v : BitVec 8)

/-- The ten high bits of format I, `op` and the reserved bits, stand above its four fields (R82). -/
theorem extractLsb'_initWord_header (start len : Nat) (hs : 26 ≤ start) :
    (h ++ p ++ l ++ g ++ v).extractLsb' start len = h.extractLsb' (start - 26) len := by
  rw [BitVec.extractLsb'_append_eq_of_le (by omega), BitVec.extractLsb'_append_eq_of_le (by omega),
    BitVec.extractLsb'_append_eq_of_le (by omega), BitVec.extractLsb'_append_eq_of_le (by omega)]
  congr 1

theorem pbits_initWord : (h ++ p ++ l ++ g ++ v).extractLsb' 20 6 = p := by
  rw [BitVec.extractLsb'_append_eq_of_le (by decide), BitVec.extractLsb'_append_eq_of_le (by decide),
    BitVec.extractLsb'_append_eq_of_le (by decide)]
  exact BitVec.extractLsb'_append_eq_right

theorem lbits_initWord : (h ++ p ++ l ++ g ++ v).extractLsb' 14 6 = l := by
  rw [BitVec.extractLsb'_append_eq_of_le (by decide), BitVec.extractLsb'_append_eq_of_le (by decide)]
  exact BitVec.extractLsb'_append_eq_right

theorem gbits_initWord : (h ++ p ++ l ++ g ++ v).extractLsb' 8 6 = g := by
  rw [BitVec.extractLsb'_append_eq_of_le (by decide)]
  exact BitVec.extractLsb'_append_eq_right

theorem variant_initWord : (h ++ p ++ l ++ g ++ v).extractLsb' 0 8 = v := BitVec.extractLsb'_append_eq_right

theorem decodeCommand_encodeCommand_init :
    decodeCommand (encodeCommand (.init v g l p)) = some (.init v g l p) := by
  rw [show encodeCommand (.init v g l p) = 0#10 ++ p ++ l ++ g ++ v from rfl, decodeCommand, opField, reservedInit,
    extractLsb'_initWord_header (hs := by decide), extractLsb'_initWord_header (hs := by decide),
    pbits_initWord, lbits_initWord, gbits_initWord, variant_initWord]
  simp

end InitWord

/-- A command's word carries all its fields (R82, R83, R84). -/
theorem decodeCommand_encodeCommand (c : Command) : decodeCommand (encodeCommand c) = some c := by
  cases c with
  | init v g l p => exact decodeCommand_encodeCommand_init p l g v
  | predict pc => exact decodeCommand_encodeCommand_predict pc
  | train pc o => exact decodeCommand_encodeCommand_train pc o

/-! ### What a word decodes to, by its fields -/

section Fields

variable {w : CmdWord}

theorem decodeCommand_eq_init_iff {v : BitVec 8} {g l p : BitVec 6} :
    decodeCommand w = some (.init v g l p) ↔ (opField w = 0b00#2 ∧ reservedInit w = 0#8) ∧
      w.extractLsb' 0 8 = v ∧ w.extractLsb' 8 6 = g ∧ w.extractLsb' 14 6 = l ∧ w.extractLsb' 20 6 = p := by
  unfold decodeCommand
  split_ifs <;> simp_all

theorem decodeCommand_eq_predict_iff {pc : Addr} :
    decodeCommand w = some (.predict pc) ↔ (opField w = 0b01#2 ∧ reservedPredict w = 0#2) ∧ pcField w = pc := by
  unfold decodeCommand
  split_ifs <;> simp_all

theorem decodeCommand_eq_train_iff {pc : Addr} {o : Direction} :
    decodeCommand w = some (.train pc o) ↔ (opField w = 0b10#2 ∧ reservedTrain w = 0#1) ∧
      pcField w = pc ∧ dirOf (w.extractLsb' 32 1) = o := by
  unfold decodeCommand
  split_ifs <;> simp_all

theorem opField_eq_three (h0 : opField w ≠ 0b00#2) (h1 : opField w ≠ 0b01#2) (h2 : opField w ≠ 0b10#2) :
    opField w = 0b11#2 := by
  bv_omega

/-- The illegal words of R87: `op` 11, or a reserved bit of the format that is 1. -/
theorem decodeCommand_eq_none_iff :
    decodeCommand w = none ↔ opField w = 0b11#2 ∨ (opField w = 0b00#2 ∧ reservedInit w ≠ 0#8) ∨
      (opField w = 0b01#2 ∧ reservedPredict w ≠ 0#2) ∨ (opField w = 0b10#2 ∧ reservedTrain w ≠ 0#1) := by
  unfold decodeCommand
  split_ifs with h0 hreserved h1 hreserved h2 hreserved
  · simp [h0, hreserved]
  · simp [h0, hreserved]
  · simp [h1, hreserved]
  · simp [h1, hreserved]
  · simp [h2, hreserved]
  · simp [h2, hreserved]
  · simp [opField_eq_three h0 h1 h2]

end Fields

/-! ### The word a command was decoded from -/

section Formats

variable (w : CmdWord)

/-- Two fields of a word that stand side by side are one. -/
theorem extractLsb'_append_adjacent (start len len' : Nat) :
    w.extractLsb' (start + len) len' ++ w.extractLsb' start len = w.extractLsb' start (len' + len) :=
  BitVec.extractLsb'_append_extractLsb'_eq_extractLsb' rfl

/-- The header of format I, `op` and its reserved bits (R82). -/
theorem opField_append_reservedInit : opField w ++ reservedInit w = w.extractLsb' 26 10 :=
  extractLsb'_append_adjacent w 26 8 2

/-- Format I (R82), field by field. -/
theorem formatI_fields_append : opField w ++ reservedInit w ++ w.extractLsb' 20 6 ++ w.extractLsb' 14 6 ++
    w.extractLsb' 8 6 ++ w.extractLsb' 0 8 = w := by
  have hp : w.extractLsb' 26 10 ++ w.extractLsb' 20 6 = w.extractLsb' 20 16 := extractLsb'_append_adjacent w 20 6 10
  have hl : w.extractLsb' 20 16 ++ w.extractLsb' 14 6 = w.extractLsb' 14 22 := extractLsb'_append_adjacent w 14 6 16
  have hg : w.extractLsb' 14 22 ++ w.extractLsb' 8 6 = w.extractLsb' 8 28 := extractLsb'_append_adjacent w 8 6 22
  have hv : w.extractLsb' 8 28 ++ w.extractLsb' 0 8 = w.extractLsb' 0 36 := extractLsb'_append_adjacent w 0 8 28
  rw [opField_append_reservedInit, hp, hl, hg, hv, BitVec.extractLsb'_eq_self]

/-- Format I (R82) with its four operand fields as one. -/
theorem formatI_append : opField w ++ reservedInit w ++ w.extractLsb' 0 26 = w := by
  rw [opField_append_reservedInit]
  exact (extractLsb'_append_adjacent w 0 26 10).trans BitVec.extractLsb'_eq_self

/-- Format P (R83). -/
theorem formatP_append : opField w ++ reservedPredict w ++ pcField w = w := by
  have hheader : opField w ++ reservedPredict w = w.extractLsb' 32 4 := extractLsb'_append_adjacent w 32 2 2
  rw [hheader]
  exact (extractLsb'_append_adjacent w 0 32 4).trans BitVec.extractLsb'_eq_self

/-- The header of format T, `op` and its reserved bit (R84). -/
theorem opField_append_reservedTrain : opField w ++ reservedTrain w = w.extractLsb' 33 3 :=
  extractLsb'_append_adjacent w 33 1 2

/-- Format T (R84), field by field. -/
theorem formatT_fields_append : opField w ++ reservedTrain w ++ w.extractLsb' 32 1 ++ pcField w = w := by
  have ho : w.extractLsb' 33 3 ++ w.extractLsb' 32 1 = w.extractLsb' 32 4 := extractLsb'_append_adjacent w 32 1 3
  rw [opField_append_reservedTrain, ho]
  exact (extractLsb'_append_adjacent w 0 32 4).trans BitVec.extractLsb'_eq_self

/-- Format T (R84) with its outcome and its address as one. -/
theorem formatT_append : opField w ++ reservedTrain w ++ w.extractLsb' 0 33 = w := by
  rw [opField_append_reservedTrain]
  exact (extractLsb'_append_adjacent w 0 33 3).trans BitVec.extractLsb'_eq_self

end Formats

/-- Every bit is the bit of its direction (R8). -/
theorem bitOf_dirOf : ∀ b : BitVec 1, bitOf (dirOf b) = b := by decide

theorem encodeCommand_of_decodeCommand {w : CmdWord} {c : Command} (h : decodeCommand w = some c) :
    encodeCommand c = w := by
  cases c with
  | init v g l p =>
    obtain ⟨⟨hop, hreserved⟩, rfl, rfl, rfl, rfl⟩ := decodeCommand_eq_init_iff.1 h
    rw [encodeCommand, ← hop, ← hreserved]
    exact formatI_fields_append w
  | predict pc =>
    obtain ⟨⟨hop, hreserved⟩, rfl⟩ := decodeCommand_eq_predict_iff.1 h
    rw [encodeCommand, ← hop, ← hreserved]
    exact formatP_append w
  | train pc o =>
    obtain ⟨⟨hop, hreserved⟩, rfl, rfl⟩ := decodeCommand_eq_train_iff.1 h
    rw [encodeCommand, bitOf_dirOf, ← hop, ← hreserved]
    exact formatT_fields_append w

/-! ### The row of an instruction -/

/-- An instruction is well formed in a mode exactly when its command selects it there (R91). -/
theorem wellFormedIn_iff_selectRow (m : Mode) (i : Instr) : wellFormedIn m i = true ↔ selectRow m i.command = i := by
  cases i with
  | init v g l p => exact Laws.Selects.init v g l p m
  | predictNone pc => exact Laws.Selects.predictNone pc m
  | predictStatic pc => exact Laws.Selects.predictStatic pc m
  | predictGshare pc => exact Laws.Selects.predictGshare pc m
  | predictTournament pc => exact Laws.Selects.predictTournament pc m
  | predictCustom pc => exact Laws.Selects.predictCustom pc m
  | trainNone pc o => exact Laws.Selects.trainNone pc o m
  | trainStatic pc o => exact Laws.Selects.trainStatic pc o m
  | trainGshare pc o => exact Laws.Selects.trainGshare pc o m
  | trainTournament pc o => exact Laws.Selects.trainTournament pc o m
  | trainCustom pc o => exact Laws.Selects.trainCustom pc o m

/-- The row a command selects is a row of that command. -/
@[simp] theorem command_selectRow (m : Mode) (c : Command) : (selectRow m c).command = c := by
  cases c with
  | init v g l p => rfl
  | predict pc => cases m <;> rfl
  | train pc o => cases m <;> rfl

theorem wellFormedIn_selectRow (m : Mode) (c : Command) : wellFormedIn m (selectRow m c) = true := by
  rw [wellFormedIn_iff_selectRow, command_selectRow]

/-! ### Fields as numbers -/

section Numbers

variable (w : CmdWord)

theorem toNat_opField : (opField w).toNat = w.toNat / 2 ^ 34 := by
  rw [opField, BitVec.extractLsb'_toNat, Nat.shiftRight_eq_div_pow]
  exact Nat.mod_eq_of_lt (Nat.div_lt_of_lt_mul w.isLt)

theorem toNat_reservedInit : (reservedInit w).toNat = w.toNat / 2 ^ 26 % 2 ^ 8 := by
  rw [reservedInit, BitVec.extractLsb'_toNat, Nat.shiftRight_eq_div_pow]

theorem toNat_reservedPredict : (reservedPredict w).toNat = w.toNat / 2 ^ 32 % 2 ^ 2 := by
  rw [reservedPredict, BitVec.extractLsb'_toNat, Nat.shiftRight_eq_div_pow]

theorem toNat_reservedTrain : (reservedTrain w).toNat = w.toNat / 2 ^ 33 % 2 := by
  rw [reservedTrain, BitVec.extractLsb'_toNat, Nat.shiftRight_eq_div_pow, pow_one]

end Numbers

/-! ### Match and mask -/

section MatchAndMask

variable {n m k : Nat}

theorem append_eq_append_iff {a c : BitVec n} {b d : BitVec m} : a ++ b = c ++ d ↔ a = c ∧ b = d := by
  refine ⟨fun h => ⟨?_, ?_⟩, fun ⟨hac, hbd⟩ => hac ▸ hbd ▸ rfl⟩
  · simpa only [BitVec.extractLsb'_append_eq_left] using congrArg (BitVec.extractLsb' m n) h
  · simpa only [BitVec.extractLsb'_append_eq_right] using congrArg (BitVec.extractLsb' 0 m) h

/-- A mask of the two high fields matches exactly when both hold their values. -/
theorem masked_eq_iff {w : BitVec (n + m + k)} {op : BitVec n} {reserved : BitVec m} {operands : BitVec k}
    (hw : op ++ reserved ++ operands = w) (x : BitVec n) (y : BitVec m) :
    w &&& (BitVec.allOnes (n + m) ++ 0#k) = x ++ y ++ 0#k ↔ op = x ∧ reserved = y := by
  rw [← hw, BitVec.and_append, BitVec.and_allOnes, BitVec.and_zero, BitVec.append_left_inj, append_eq_append_iff]

variable (w : CmdWord)

theorem formatI_match_iff : w &&& 0xFFC000000#36 = 0x000000000#36 ↔ opField w = 0b00#2 ∧ reservedInit w = 0#8 :=
  masked_eq_iff (formatI_append w) 0b00#2 0#8

theorem formatP_match_iff : w &&& 0xF00000000#36 = 0x400000000#36 ↔ opField w = 0b01#2 ∧ reservedPredict w = 0#2 :=
  masked_eq_iff (formatP_append w) 0b01#2 0#2

theorem formatT_match_iff : w &&& 0xE00000000#36 = 0x800000000#36 ↔ opField w = 0b10#2 ∧ reservedTrain w = 0#1 :=
  masked_eq_iff (formatT_append w) 0b10#2 0#1

end MatchAndMask

end Sys2Proof

namespace Sys2Proof.Proofs

/-- Settles O2: the word carries the command whole, and MODE selects the row again. -/
theorem decodeOfEncode : Obligations.DecodeOfEncode := by
  unfold Obligations.DecodeOfEncode
  intro m i hi
  have hrow : selectRow m i.command = i := (wellFormedIn_iff_selectRow m i).1 hi
  rw [decode, encode, decodeCommand_encodeCommand, Option.map_some, hrow]

/-- Settles O3: the fields of a legal word, put together again, are the word. -/
theorem encodeOfDecode : Obligations.EncodeOfDecode := by
  unfold Obligations.EncodeOfDecode
  intro m w i hi
  obtain ⟨c, hc, rfl⟩ := Option.map_eq_some_iff.1 hi
  refine ⟨?_, wellFormedIn_selectRow m c⟩
  rw [encode, command_selectRow, encodeCommand_of_decodeCommand hc]

/-- Settles O4, by the illegal words in terms of the fields. -/
theorem illegalWordsCharacterized : Obligations.IllegalWordsCharacterized := by
  unfold Obligations.IllegalWordsCharacterized
  intro m w
  rw [decode, Option.map_eq_none_iff, decodeCommand_eq_none_iff]
  simp only [ne_eq, ← BitVec.toNat_inj, toNat_opField, toNat_reservedInit, toNat_reservedPredict,
    toNat_reservedTrain, BitVec.toNat_ofNat]

/-- Settles O5: each mask covers `op` and the reserved bits of its format, and the operand fields are free. -/
theorem decoderAgreesWithMatchAndMask : Obligations.DecoderAgreesWithMatchAndMask := by
  unfold Obligations.DecoderAgreesWithMatchAndMask
  intro w
  rw [formatI_match_iff, formatP_match_iff, formatT_match_iff]
  refine ⟨?_, ?_, ?_⟩
  · simp only [decodeCommand_eq_init_iff, exists_and_left, exists_eq', and_true]
  · simp only [decodeCommand_eq_predict_iff, exists_and_left, exists_eq', and_true]
  · simp only [decodeCommand_eq_train_iff, exists_and_left, exists_eq', and_true]

/-- Settles O1, by running the decoder on each word. -/
theorem specVectorWordsDecode : Obligations.SpecVectorWordsDecode := by
  unfold Obligations.SpecVectorWordsDecode
  decide

end Sys2Proof.Proofs
end

section
/-! PROOFS. The instruction a step runs, and its response (30_encoding R86, R91; 44_dispatch R190). -/

open Sys2Proof Sys2Proof.Machine

namespace Sys2Proof.Machine

variable {s : State}

/-- A row that MODE does not select is refused by its row's name (R91; log entry 12). -/
theorem exec_of_rowMode_ne {i : Instr} {r : Mode} (hr : i.rowMode = some r) (hne : mode s ≠ r) :
    exec i s = .refused (.rowNotSelected r) := by
  cases i with
  | init => cases hr
  | predictNone | predictStatic | predictGshare | predictTournament | predictCustom | trainNone | trainStatic
  | trainGshare | trainTournament | trainCustom =>
    cases hr
    simp only [exec, execPredictNone, execPredictStatic, execPredictGshare, execPredictTournament, execPredictCustom,
      execTrainNone, execTrainStatic, execTrainGshare, execTrainTournament, execTrainCustom]
    split
    · next hs => exact absurd (congrArg modeOf hs) hne
    · rfl

theorem exec_completes_of_wellFormedIn {i : Instr} (h : wellFormedIn (mode s) i = true) : ∃ t, exec i s = .next t := by
  rw [← (wellFormedIn_iff_selectRow (mode s) i).1 h]
  exact exec_selectRow_completes i.command s

/-- Only a PREDICT or a TRAIN can be ill formed, and then MODE is not its row's. -/
theorem rowMode_of_not_wellFormedIn {m : Mode} {i : Instr} (h : wellFormedIn m i = false) :
    ∃ r, i.rowMode = some r ∧ m ≠ r := by
  unfold wellFormedIn at h
  split at h
  · cases h
  · next r hr => exact ⟨r, hr, fun hm => by simp [hm] at h⟩

theorem step_of_decode {w : CmdWord} {rest : List Input} {i : Instr} (hi : s.inputs = .command w :: rest)
    (hd : decode (mode s) w = some i) : step s = exec i (s.withInputs rest) := by
  obtain ⟨c, hc, rfl⟩ := Option.map_eq_some_iff.1 hd
  exact step_of_command hi hc

/-- The port reads back the word that stands in the table as its number. -/
theorem tableWord_toNat (w : CmdWord) : tableWord 36 w.toNat = w := by
  rw [tableWord, Nat.mod_eq_of_lt w.isLt, BitVec.ofNat_toNat, BitVec.setWidth_eq]

theorem execInit_answers (v : BitVec 8) (g l p : BitVec 6) (s : State) :
    ∃ t r, execInit v g l p s = .next t ∧ t.inputs = s.inputs ∧ t.rsp = some r ∧ t.responses = s.responses ++ [r] ∧
      r = ⟨if configValid s.build v g l p then .ok else .cfgFault, 0#1⟩ := by
  unfold execInit
  split
  · exact ⟨_, _, rfl, rfl, rfl, rfl, rfl⟩
  · exact ⟨_, _, rfl, rfl, rfl, rfl, rfl⟩

/-- Bits 2:1 of the response word are the status code (R86). -/
theorem responseWord_toNat_div_two (r : Response) : (responseWord r).toNat / 2 = (statusCode r.status).toNat := by
  have hstatus : (responseWord r).extractLsb' 1 2 = statusCode r.status := BitVec.extractLsb'_append_eq_left
  rw [← hstatus, BitVec.extractLsb'_toNat, Nat.shiftRight_eq_div_pow, pow_one]
  have hlt : (responseWord r).toNat < 2 ^ 3 := (responseWord r).isLt
  omega

theorem statusCode_ne_three (st : Status) : (statusCode st).toNat ≠ 3 := by
  cases st <;> decide

end Sys2Proof.Machine

namespace Sys2Proof.Proofs

/-- Settles O12: MODE selects the row of a well-formed instruction, and each meaning refuses the other modes. -/
theorem executesExactlyTheSelectedRows : Obligations.ExecutesExactlyTheSelectedRows := by
  unfold Obligations.ExecutesExactlyTheSelectedRows
  intro i s
  refine ⟨exec_completes_of_wellFormedIn, fun h => ?_⟩
  obtain ⟨r, hr, hne⟩ := rowMode_of_not_wellFormedIn h
  exact ⟨r, hr, exec_of_rowMode_ne hr hne⟩

/-- Settles O18, by the four things a command word can be. -/
theorem everyCommandIsAnswered : Obligations.EveryCommandIsAnswered := by
  unfold Obligations.EveryCommandIsAnswered
  intro s w rest hi
  cases hc : decodeCommand w with
  | none => exact ⟨_, _, step_illegal hi hc, rfl, rfl, rfl, rfl⟩
  | some c =>
    cases c with
    | init v g l p =>
      rw [step_of_command hi hc]
      exact execInit_answers v g l p (s.withInputs rest)
    | predict pc =>
      obtain ⟨d, hd⟩ := step_predict hi hc
      exact ⟨_, _, hd, rfl, rfl, rfl, rfl⟩
    | train pc o => exact ⟨_, _, step_train hi hc, rfl, rfl, rfl, rfl⟩

/-- Settles O6: a presented word is the next command, and its table number is the word itself. -/
theorem stepRunsTheDecodedInstruction : Obligations.StepRunsTheDecodedInstruction := by
  unfold Obligations.StepRunsTheDecodedInstruction
  refine ⟨fun s w rest i hi hd _ => step_of_decode hi hd, fun s i hd => ?_⟩
  rw [State.withFetchWord, tableWord_toNat]
  exact step_of_decode (s := presentCommand (encode i) s) rfl hd

/-- Settles O19: the four codes are computed, and bits 2:1 are a status code, none of which is 11. -/
theorem responseWordCodes : Obligations.ResponseWordCodes := by
  unfold Obligations.ResponseWordCodes
  refine ⟨rfl, rfl, rfl, rfl, fun r => ?_⟩
  rw [responseWord_toNat_div_two]
  exact statusCode_ne_three r.status

end Sys2Proof.Proofs
end

section
/-! PROOFS. The counter and history primitives as functions on numbers: a bump moves a counter's number by one and
clamps it, bumps repeated saturate, and outcomes shifted into a register are its history (40 R110 to R115). -/

open Sys2Proof Sys2Proof.Machine

namespace Sys2Proof.Machine

/-! ### A counter and its number -/

theorem counterValue_le_three (s : Counter) : counterValue s ≤ 3 := by cases s <;> decide

theorem counterOfValue_counterValue (s : Counter) : counterOfValue (counterValue s) = s := by cases s <;> rfl

/-- A counter state is determined by its number. -/
theorem counterValue_injective : Function.Injective counterValue :=
  Function.LeftInverse.injective counterOfValue_counterValue

theorem counterValue_counterOfValue {n : Nat} (h : n ≤ 3) : counterValue (counterOfValue n) = n := by
  interval_cases n <;> rfl

@[simp] theorem counterValue_bump_taken (s : Counter) : counterValue (bump s .taken) = min (counterValue s + 1) 3 :=
  counterValue_counterOfValue (min_le_right _ _)

@[simp] theorem counterValue_bump_notTaken (s : Counter) : counterValue (bump s .notTaken) = counterValue s - 1 :=
  counterValue_counterOfValue ((Nat.sub_le _ _).trans (counterValue_le_three s))

theorem counterRead_eq_taken_iff (s : Counter) : counterRead s = .taken ↔ 2 ≤ counterValue s := by
  unfold counterRead
  split
  · next h => exact iff_of_true rfl h
  · next h => exact iff_of_false nofun h

theorem counterRead_eq_notTaken_iff (s : Counter) : counterRead s = .notTaken ↔ counterValue s ≤ 1 := by
  simp [counterRead]

/-! ### Bumps repeated -/

/-- The general form of R115 upward: each bump adds one below the clamp. -/
theorem counterValue_iterate_bump_taken (n : Nat) (s : Counter) :
    counterValue ((fun c => bump c .taken)^[n] s) = min (counterValue s + n) 3 := by
  induction n with
  | zero => exact (min_eq_left (counterValue_le_three s)).symm
  | succ n ih =>
    rw [Function.iterate_succ_apply', counterValue_bump_taken, ih]
    omega

/-- The general form of R115 downward; subtraction on natural numbers is the clamp at 0. -/
theorem counterValue_iterate_bump_notTaken (n : Nat) (s : Counter) :
    counterValue ((fun c => bump c .notTaken)^[n] s) = counterValue s - n := by
  induction n with
  | zero => rfl
  | succ n ih => rw [Function.iterate_succ_apply', counterValue_bump_notTaken, ih, Nat.sub_sub]

theorem iterate_bump_taken_of_three_le {n : Nat} (h : 3 ≤ n) (s : Counter) :
    (fun c => bump c .taken)^[n] s = .strongTaken := by
  apply counterValue_injective
  rw [counterValue_iterate_bump_taken]
  exact min_eq_right (h.trans (Nat.le_add_left _ _))

theorem iterate_bump_notTaken_of_three_le {n : Nat} (h : 3 ≤ n) (s : Counter) :
    (fun c => bump c .notTaken)^[n] s = .strongNotTaken := by
  apply counterValue_injective
  rw [counterValue_iterate_bump_notTaken]
  exact Nat.sub_eq_zero_of_le ((counterValue_le_three s).trans h)

/-! ### Outcomes shifted into a register -/

/-- Each bit is the bit of an outcome. -/
theorem exists_bit_eq {b : Nat} (h : b ≤ 1) : ∃ o, bit o = b := by
  interval_cases b
  · exact ⟨.notTaken, rfl⟩
  · exact ⟨.taken, rfl⟩

/-- A register that holds 0 and takes in the outcomes one by one holds the last of them (R112). -/
theorem foldl_shiftIn_eq_lastOutcomes (w : Nat) (os : List Direction) :
    os.foldl (fun h o => shiftIn h (bit o) w) 0 = lastOutcomes w os := by
  induction os using List.reverseRecOn with
  | nil => exact (lastOutcomes_nil w).symm
  | append_singleton os o ih => rw [List.foldl_append, ih, lastOutcomes_concat, List.foldl_cons, List.foldl_nil]

end Sys2Proof.Machine

namespace Sys2Proof.Proofs

/-- Settles O23, by induction on the outcomes from the newest back. -/
theorem historyLaw : Obligations.HistoryLaw := by
  unfold Obligations.HistoryLaw
  exact foldl_shiftIn_eq_lastOutcomes

/-- Settles O25: the number after `n` bumps by induction on `n`; at an extreme number the state is the extreme one. -/
theorem saturationLaw : Obligations.SaturationLaw := by
  unfold Obligations.SaturationLaw
  refine fun n s => ⟨counterValue_iterate_bump_taken n s, ?_, fun h =>
    ⟨iterate_bump_taken_of_three_le h s, iterate_bump_notTaken_of_three_le h s⟩⟩
  rw [counterValue_iterate_bump_notTaken]
  omega

/-- Settles O22: masking is a remainder, and a bit shifted in is a doubling and an addition. -/
theorem maskAndShiftIn : Obligations.MaskAndShiftIn := by
  unfold Obligations.MaskAndShiftIn
  intro w v h b hb
  obtain ⟨o, rfl⟩ := exists_bit_eq hb
  exact ⟨rfl, and_mask v w, shiftIn_eq_mod h w o, shiftIn_lt h (bit o) w⟩

/-- Settles O24, through the number of a counter state. -/
theorem bumpAndRead : Obligations.BumpAndRead := by
  unfold Obligations.BumpAndRead
  refine fun s => ⟨counterValue_bump_taken s, ?_, counterRead_eq_taken_iff s, counterRead_eq_notTaken_iff s, ?_⟩
  · rw [counterValue_bump_notTaken]
    omega
  · cases s <;> rfl

end Sys2Proof.Proofs
end

section
/-! PROOFS. Mode GSHARE: the index as arithmetic, and what PREDICT and TRAIN do with the counter it points at
(41_gshare R140 to R142). -/

open Sys2Proof Sys2Proof.Machine

namespace Sys2Proof.Machine

/-! ### The index -/

/-- The index formula of R140 as a remainder. -/
theorem gshareIndex_eq_mod (h : Nat) (pc : Addr) (g : Nat) : gshareIndex h pc g = (h ^^^ pc.toNat) % 2 ^ g :=
  and_mask _ _

/-- Masking passes through the XOR, so only the low `G` bits of the history and of the address matter. -/
theorem gshareIndex_eq_xor_mod (h : Nat) (pc : Addr) (g : Nat) :
    gshareIndex h pc g = h % 2 ^ g ^^^ pc.toNat % 2 ^ g := by
  rw [gshareIndex_eq_mod, Nat.xor_mod_two_pow]

/-! ### The elements of mode GSHARE -/

theorem gsharePrediction_eq (g : Nat) (st : GshareState) (pc : Addr) :
    gsharePrediction g st pc = counterRead (tableRead .weakNotTaken st.gpht ((st.ghr ^^^ pc.toNat) % 2 ^ g)) := by
  rw [gsharePrediction, gshareIndex_eq_mod]

theorem gshareTrained_ghr (g : Nat) (st : GshareState) (pc : Addr) (o : Direction) :
    (gshareTrained g st pc o).ghr = (2 * st.ghr + bit o) % 2 ^ g :=
  shiftIn_eq_mod _ _ _

/-- TRAIN bumps the counter that the history before it points at, and no other (R142). -/
theorem tableRead_gshareTrained (g : Nat) (st : GshareState) (pc : Addr) (o : Direction) (i : Nat) :
    tableRead .weakNotTaken (gshareTrained g st pc o).gpht i =
      if i = (st.ghr ^^^ pc.toNat) % 2 ^ g then bump (tableRead .weakNotTaken st.gpht i) o
      else tableRead .weakNotTaken st.gpht i := by
  rw [gshareTrained, tableRead_bump, gshareIndex_eq_mod]
  split
  · next hi => rw [hi]
  · rfl

end Sys2Proof.Machine

namespace Sys2Proof.Proofs

/-- Settles O28: the mask keeps the low `G` bits of each side of the XOR, and a masked history is its own low bits. -/
theorem gshareIndexAliases : Obligations.GshareIndexAliases := by
  unfold Obligations.GshareIndexAliases
  intro h g pc pc'
  refine ⟨gshareIndex_eq_mod h pc g, fun hlow => ?_, fun hmasked => ?_⟩
  · rw [gshareIndex_eq_xor_mod, gshareIndex_eq_xor_mod, hlow]
  · rw [gshareIndex_eq_xor_mod, Nat.mod_eq_of_lt hmasked]

/-- Settles O36, by the meaning of PREDICT in the mode that selects it. -/
theorem predictGshareReadsTheCounter : Obligations.PredictGshareReadsTheCounter := by
  unfold Obligations.PredictGshareReadsTheCounter
  intro s st pc hs
  rw [← gsharePrediction_eq]
  exact execPredictGshare_of_strategy pc hs

/-- Settles O37: TRAIN answers with the trained elements in place, whose two fields are known by arithmetic. -/
theorem trainGshareBumpsAndShifts : Obligations.TrainGshareBumpsAndShifts := by
  unfold Obligations.TrainGshareBumpsAndShifts
  intro s st pc o hs
  have hframe : OnlyElementsChange s (answerWith 0#1 (.gshare (gshareTrained s.cfgG.toNat st pc o)) s) ⟨.ok, 0#1⟩ :=
    ⟨rfl, rfl, rfl, rfl, rfl, rfl, rfl, rfl⟩
  exact ⟨_, _, execTrainGshare_of_strategy pc o hs, hframe, rfl, rfl, gshareTrained_ghr _ st pc o,
    tableRead_gshareTrained _ st pc o⟩

end Sys2Proof.Proofs
end

section
/-! PROOFS. Under the caller contract no step reads a free value: the count of free draws, which picks the next ones,
makes no difference to a run (41 R143, 70_reset R233, 93 U3). -/

open Sys2Proof Sys2Proof.Machine

namespace Sys2Proof.Machine

/-- `s` with the count of free draws being `d`. -/
abbrev State.withDraws (s : State) (d : Nat) : State := { s with draws := d }

/-! ### Commands that read no free value -/

/-- Where the scratch state holds a value TRAIN reads that value, so the count of free draws does not matter. -/
theorem trainedStrategy_draws {b : BuildParams} {g l p : Nat} (n n' : Nat) (pc : Addr) (o : Direction) {st : Strategy}
    (h : ∀ st', st = .custom st' → st'.scratch ≠ Option.none) :
    trainedStrategy b g l p n pc o st = trainedStrategy b g l p n' pc o st := by
  cases st with
  | custom st =>
    obtain ⟨sc, hsc⟩ := Option.ne_none_iff_exists'.1 (h st rfl)
    simp only [trainedStrategy, hsc, scratchPred, scratchNeed]
  | none | static | gshare | tournament => rfl

theorem afterTrain_withDraws {s : State} (d : Nat) (pc : Addr) (o : Direction)
    (h : ∀ st, s.strategy = .custom st → st.scratch ≠ Option.none) :
    afterTrain pc o (s.withDraws d) = (afterTrain pc o s).withDraws d := by
  unfold afterTrain
  rw [trainDraws_eq h, trainedStrategy_draws d s.draws pc o h]
  rfl

/-- Only a TRAIN can read a free value; any other command does the same with another count of free draws. -/
theorem exec_selectRow_withDraws {s t : State} {c : Command} (d : Nat)
    (hscr : ∀ pc o, c = .train pc o → ∀ st, s.strategy = .custom st → st.scratch ≠ Option.none)
    (h : exec (selectRow (mode s) c) s = .next t) :
    exec (selectRow (mode s) c) (s.withDraws d) = .next (t.withDraws d) := by
  cases c with
  | init v g l p =>
    obtain ⟨hv, rfl⟩ | ⟨hv, rfl⟩ := execInit_spec h
    · exact if_pos hv
    · exact if_neg (by simp [hv])
  | predict pc =>
    obtain ⟨_, _, _, _, _, strategy, _⟩ := s
    cases strategy with
    | none | static | gshare | tournament | custom => cases h; rfl
  | train pc o =>
    cases (exec_trainRow pc o s).symm.trans h
    rw [← afterTrain_withDraws d pc o (hscr pc o rfl)]
    exact exec_trainRow pc o (s.withDraws d)

/-! ### The contract along a run -/

/-- A driver that has issued no INIT may go on as one that has: only an INIT can come next. -/
theorem obeysContract_ready_of_beforeInit {is : List Input} (h : obeysContract .beforeInit is = true) :
    obeysContract .ready is = true := by
  induction is with
  | nil => rfl
  | cons i rest ih =>
    cases i with
    | rst => exact h
    | command w =>
      cases hc : decodeCommand w with
      | none => simpa [obeysContract, hc] using ih (obeysContract_illegal hc h)
      | some c =>
        obtain ⟨ph', hn, hrest⟩ := obeysContract_command hc h
        cases c with
        | init v g l p => cases hn; simpa [obeysContract, hc, contractNext] using hrest
        | predict | train => cases hn

/-- With no TRAIN owed the contract invariant of the phase `ready` holds of every state (R233). -/
theorem contractInv_of_no_train_owed {ph : Phase} {s : State} (hph : ph = .beforeInit ∨ ph = .ready)
    (h : obeysContract ph s.inputs = true) : ContractInv .ready s := by
  obtain rfl | rfl := hph
  · exact contractInv_ready (obeysContract_ready_of_beforeInit h)
  · exact contractInv_ready h

/-- A TRAIN that the contract allows finds a value in the scratch state. -/
theorem scratch_of_contractInv {ph : Phase} {s : State} {w : CmdWord} {rest : List Input} {pc : Addr} {o : Direction}
    (h : ContractInv ph s) (hi : s.inputs = .command w :: rest) (hc : decodeCommand w = some (.train pc o)) :
    ∀ st, s.strategy = .custom st → st.scratch ≠ Option.none := by
  obtain ⟨hin, -, hscr⟩ := h
  rw [hi] at hin
  obtain ⟨ph', hn, -⟩ := obeysContract_command hc hin
  exact hscr pc (contractNext_train hn).1

/-- O60 without the name of the next phase. -/
theorem exists_contractInv_of_step {ph : Phase} {s t : State} (h : ContractInv ph s) (hstep : step s = .next t) :
    ∃ ph', ContractInv ph' t := by
  obtain ⟨-, hnext⟩ := Proofs.everyStepKeepsTheContractInvariant ph s t h hstep
  split at hnext
  · exact ⟨_, hnext⟩
  · exact ⟨_, hnext⟩
  · split at hnext
    · exact ⟨_, hnext⟩
    · obtain ⟨ph', -, hinv⟩ := hnext; exact ⟨ph', hinv⟩

theorem step_wait {s : State} (hi : s.inputs = []) : step s = .next s := by
  simp [step, takeInput_nil s hi]

/-- Under the contract a step does the same whatever the count of free draws is, and leaves that count. -/
theorem step_withDraws {ph : Phase} {s t : State} (d : Nat) (h : ContractInv ph s) (hstep : step s = .next t) :
    step (s.withDraws d) = .next (t.withDraws d) := by
  cases hi : s.inputs with
  | nil => cases (step_wait hi).symm.trans hstep; exact step_wait (s := s.withDraws d) hi
  | cons i rest =>
    cases i with
    | rst => cases (step_rst hi).symm.trans hstep; exact step_rst (s := s.withDraws d) hi
    | command w =>
      cases hc : decodeCommand w with
      | none => cases (step_illegal hi hc).symm.trans hstep; exact step_illegal (s := s.withDraws d) hi hc
      | some c =>
        have hscr (pc : Addr) (o : Direction) (htrain : c = .train pc o) :=
          scratch_of_contractInv h hi (htrain ▸ hc)
        have hexec := (step_of_command hi hc).symm.trans hstep
        exact (step_of_command (s := s.withDraws d) hi hc).trans
          (exec_selectRow_withDraws (s := s.withInputs rest) d hscr hexec)

/-- Under the contract a whole run does the same whatever the count of free draws is. -/
theorem run_withDraws {n : Nat} {ph : Phase} {s t : State} (d : Nat) (h : ContractInv ph s)
    (hrun : Sys2Proof.core.run n s = .next t) : Sys2Proof.core.run n (s.withDraws d) = .next (t.withDraws d) := by
  induction n generalizing ph s with
  | zero => cases hrun; rfl
  | succ n ih =>
    obtain ⟨u, hstep⟩ := Proofs.everyStepCompletes s
    obtain ⟨ph', hu⟩ := exists_contractInv_of_step h hstep
    calc Sys2Proof.core.run (n + 1) (s.withDraws d)
        = Sys2Proof.core.run n (u.withDraws d) := run_of_step (step_withDraws d h hstep) n
      _ = .next (t.withDraws d) := ih hu ((run_of_step hstep n).symm.trans hrun)

end Sys2Proof.Machine

namespace Sys2Proof.Proofs

/-- Settles O58: the contract invariant holds with no TRAIN owed, and under it no step of the run reads a free value. -/
theorem contractRunsIgnoreFreeValues : Obligations.ContractRunsIgnoreFreeValues := by
  unfold Obligations.ContractRunsIgnoreFreeValues
  intro n d ph s t hph hin hrun
  exact run_withDraws d (contractInv_of_no_train_owed hph hin) hrun

end Sys2Proof.Proofs
end

section
/-! PROOFS. Mode TOURNAMENT: the four indices as arithmetic, what TRAIN leaves in the four tables, and a run over branch
events as one fold of TRAIN (42_tournament R150 to R156). -/

open Sys2Proof Sys2Proof.Machine

namespace Sys2Proof.Machine

/-! ### The indices -/

theorem globalIndex_eq_mod (b : BuildParams) (h : Nat) (pc : Addr) (g : Nat) :
    globalIndex b h pc g = (if b.tournGidxXor = true then h ^^^ pc.toNat else h) % 2 ^ g := by
  unfold globalIndex
  split
  · exact gshareIndex_eq_mod h pc g
  · exact and_mask h g

theorem chooserIndex_eq_mod (h g : Nat) : chooserIndex h g = h % 2 ^ g := and_mask h g

theorem localIndex_eq_mod (pc : Addr) (p : Nat) : localIndex pc p = pc.toNat % 2 ^ p := and_mask pc.toNat p

theorem localHistoryIndex_eq_mod (h l : Nat) : localHistoryIndex h l = h % 2 ^ l := and_mask h l

/-- The XOR moves the index exactly when a masked address bit is set. -/
theorem gshareIndex_eq_chooserIndex_iff (h : Nat) (pc : Addr) (g : Nat) :
    gshareIndex h pc g = chooserIndex h g ↔ pc.toNat % 2 ^ g = 0 := by
  rw [gshareIndex_eq_xor_mod, chooserIndex_eq_mod, xor_left_eq_self_iff]

/-- The global and the chooser index are equal exactly when the address leaves the history's low bits alone (R150). -/
theorem globalIndex_eq_chooserIndex_iff (b : BuildParams) (h : Nat) (pc : Addr) (g : Nat) :
    globalIndex b h pc g = chooserIndex h g ↔ b.tournGidxXor = false ∨ pc.toNat % 2 ^ g = 0 := by
  unfold globalIndex
  cases b.tournGidxXor with
  | true => simpa using gshareIndex_eq_chooserIndex_iff h pc g
  | false => exact iff_of_true rfl (.inl rfl)

/-! ### One entry bumped, one outcome shifted in -/

/-- A bump of a counter table, with the entry bumped named by the index it is read at. -/
theorem tableRead_bump_at (d : Counter) (t : Table Counter) (i k : Nat) (o : Direction) :
    tableRead d (tableBump d t i o) k = if k = i then bump (tableRead d t k) o else tableRead d t k := by
  rw [tableRead_bump]
  split
  · next hk => rw [hk]
  · rfl

/-- The newest outcome is bit 0 of any register at least one bit wide (R111). -/
theorem shiftIn_mod_two (h : Nat) (o : Direction) {w : Nat} (hw : 1 ≤ w) : shiftIn h (bit o) w % 2 = bit o := by
  have hb := bit_le_one o
  rw [shiftIn_eq_mod, Nat.mod_mod_of_dvd _ (dvd_pow_self 2 (Nat.one_le_iff_ne_zero.1 hw))]
  omega

/-! ### The elements of mode TOURNAMENT -/

section Elements

variable (b : BuildParams) (g l p : Nat) (st : TournamentState) (pc : Addr) (o : Direction)

theorem globalPrediction_eq :
    globalPrediction b g st pc = counterRead (tableRead .weakNotTaken st.gpht
      ((if b.tournGidxXor = true then st.ghr ^^^ pc.toNat else st.ghr) % 2 ^ g)) := by
  rw [globalPrediction, globalIndex_eq_mod]

theorem localHistory_eq : localHistory p st pc = tableRead 0 st.lht (pc.toNat % 2 ^ p) := by
  rw [localHistory, localIndex_eq_mod]

theorem localPrediction_eq :
    localPrediction l p st pc =
      counterRead (tableRead .weakNotTaken st.lpht (tableRead 0 st.lht (pc.toNat % 2 ^ p) % 2 ^ l)) := by
  rw [localPrediction, localHistoryIndex_eq_mod, localHistory_eq]

theorem chooserCounter_eq : chooserCounter b g st = tableRead b.chooserInit st.cht (st.ghr % 2 ^ g) := by
  rw [chooserCounter, chooserIndex_eq_mod]

theorem tournamentTrained_ghr : (tournamentTrained b g l p st pc o).ghr = (2 * st.ghr + bit o) % 2 ^ g :=
  shiftIn_eq_mod _ _ _

theorem tableRead_gpht_tournamentTrained (i : Nat) :
    tableRead .weakNotTaken (tournamentTrained b g l p st pc o).gpht i =
      if i = (if b.tournGidxXor = true then st.ghr ^^^ pc.toNat else st.ghr) % 2 ^ g then
        bump (tableRead .weakNotTaken st.gpht i) o
      else tableRead .weakNotTaken st.gpht i := by
  rw [tournamentTrained, tableRead_bump_at, globalIndex_eq_mod]

theorem tableRead_lpht_tournamentTrained (i : Nat) :
    tableRead .weakNotTaken (tournamentTrained b g l p st pc o).lpht i =
      if i = tableRead 0 st.lht (pc.toNat % 2 ^ p) % 2 ^ l then bump (tableRead .weakNotTaken st.lpht i) o
      else tableRead .weakNotTaken st.lpht i := by
  rw [tournamentTrained, tableRead_bump_at, localHistoryIndex_eq_mod, localHistory_eq]

/-- TRAIN shifts the outcome into the history of its address, and into no other (R154). -/
theorem tableRead_lht_tournamentTrained (i : Nat) :
    tableRead 0 (tournamentTrained b g l p st pc o).lht i =
      if i = pc.toNat % 2 ^ p then (2 * tableRead 0 st.lht i + bit o) % 2 ^ l else tableRead 0 st.lht i := by
  rw [tournamentTrained, tableRead_write, localIndex_eq_mod, localHistory_eq, shiftIn_eq_mod]
  split
  · next hi => rw [hi]
  · rfl

/-- The chooser entry of the history before TRAIN moves toward the sub-predictor that alone is right, and no other
entry moves (R154). -/
theorem tableRead_chooserTrained (i : Nat) :
    tableRead b.chooserInit (chooserTrained b g l p st pc o) i =
      if i = st.ghr % 2 ^ g ∧ globalPrediction b g st pc = o ∧ localPrediction l p st pc ≠ o then
        bump (tableRead b.chooserInit st.cht i) .taken
      else if i = st.ghr % 2 ^ g ∧ localPrediction l p st pc = o ∧ globalPrediction b g st pc ≠ o then
        bump (tableRead b.chooserInit st.cht i) .notTaken
      else tableRead b.chooserInit st.cht i := by
  rw [chooserTrained, chooserIndex_eq_mod]
  split
  · next hglobal => rw [tableRead_bump_at]; simp [hglobal]
  · next hglobal =>
    split
    · next hlocal => rw [tableRead_bump_at]; simp [hlocal]
    · next hlocal => simp [hglobal, hlocal]

/-- Both sub-predictors right, or both wrong: TRAIN leaves the whole chooser table (R155). -/
theorem chooserTrained_of_agree (h : globalPrediction b g st pc = o ↔ localPrediction l p st pc = o) :
    chooserTrained b g l p st pc o = st.cht := by
  simp [chooserTrained, h]

end Elements

/-! ### Runs over branch events -/

/-- The elements of mode TOURNAMENT after TRAIN of each of the branch events `es`. -/
def tournamentTrainedBy (b : BuildParams) (g l p : Nat) (st : TournamentState) (es : List (Addr × Direction)) :
    TournamentState :=
  es.foldl (fun st e => tournamentTrained b g l p st e.1 e.2) st

theorem tournamentTrainedBy_concat (b : BuildParams) (g l p : Nat) (st : TournamentState)
    (es : List (Addr × Direction)) (pc : Addr) (o : Direction) :
    tournamentTrainedBy b g l p st (es ++ [(pc, o)]) =
      tournamentTrained b g l p (tournamentTrainedBy b g l p st es) pc o :=
  List.foldl_concat ..

/-- The active strategy is that of mode TOURNAMENT, in the configuration of `s₀`, with the elements `st` trained by the
events `past`. -/
def TournamentElementsAfter (s₀ : State) (st : TournamentState) (past : List (Addr × Direction)) (strategy : Strategy) :
    Prop :=
  strategy = .tournament (tournamentTrainedBy s₀.build s₀.cfgG.toNat s₀.cfgL.toNat s₀.cfgP.toNat st past)

/-- PREDICT writes no element of mode TOURNAMENT (R65). -/
theorem tournamentElementsAfter_predict {s₀ : State} {st : TournamentState} (past : List (Addr × Direction)) (pc : Addr)
    (strategy : Strategy) (h : TournamentElementsAfter s₀ st past strategy) :
    TournamentElementsAfter s₀ st past (predictedStrategy s₀.build pc strategy) := by
  cases h
  rfl

theorem tournamentElementsAfter_trainExtends (s₀ : State) (st : TournamentState) :
    TrainExtends s₀ (TournamentElementsAfter s₀ st) := by
  rintro past pc o n _ rfl
  rw [TournamentElementsAfter, tournamentTrainedBy_concat, trainedStrategy]

/-- A run over branch events in mode TOURNAMENT completes with the elements trained by each event in turn (R90). -/
theorem run_branchInputs_tournament {s : State} {st : TournamentState} {es : List (Addr × Direction)}
    (hs : s.strategy = .tournament st) (hi : s.inputs = branchInputs es) :
    ∃ t, Sys2Proof.core.run (2 * es.length) s = .next t ∧ TournamentElementsAfter s st es t.strategy :=
  run_branchInputs tournamentElementsAfter_predict (tournamentElementsAfter_trainExtends s st) es [] s
    (sameConfig_refl s) hi hs

/-- While the sub-predictors agree about every outcome, no TRAIN moves the chooser table (R155). -/
theorem cht_tournamentTrainedBy {b : BuildParams} {g l p : Nat} (es : List (Addr × Direction)) (st : TournamentState)
    (h : alwaysAgree b g l p st es) : (tournamentTrainedBy b g l p st es).cht = st.cht := by
  induction es generalizing st with
  | nil => rfl
  | cons e es ih =>
    obtain ⟨hagree, hrest⟩ := h
    exact (ih _ hrest).trans (chooserTrained_of_agree b g l p st e.1 e.2 hagree)

end Sys2Proof.Machine

namespace Sys2Proof.Proofs

/-- Settles O38: each mask is a remainder, and XOR with the address is neutral exactly when its masked bits are 0. -/
theorem tournamentIndexFormulas : Obligations.TournamentIndexFormulas := by
  unfold Obligations.TournamentIndexFormulas
  intro b h g l p lhv pc
  refine ⟨?_, chooserIndex_eq_mod h g, localIndex_eq_mod pc p, localHistoryIndex_eq_mod lhv l, fun hh => ?_,
    fun hlhv => ?_, globalIndex_eq_chooserIndex_iff b h pc g⟩
  · rw [globalIndex_eq_mod, apply_ite (· % 2 ^ g)]
  · rw [chooserIndex_eq_mod, Nat.mod_eq_of_lt hh]
  · rw [localHistoryIndex_eq_mod, Nat.mod_eq_of_lt hlhv]

/-- Settles O40: TRAIN answers with the trained elements in place, and each of its five fields is known by a lemma. -/
theorem trainTournamentUpdatesBothPredictors : Obligations.TrainTournamentUpdatesBothPredictors := by
  unfold Obligations.TrainTournamentUpdatesBothPredictors
  rintro s st pc o _ _ _ _ _ _ hs rfl rfl rfl rfl rfl rfl
  rw [← globalPrediction_eq, ← localPrediction_eq]
  have hframe : OnlyElementsChange s (answerWith 0#1
      (.tournament (tournamentTrained s.build s.cfgG.toNat s.cfgL.toNat s.cfgP.toNat st pc o)) s) ⟨.ok, 0#1⟩ :=
    ⟨rfl, rfl, rfl, rfl, rfl, rfl, rfl, rfl⟩
  exact ⟨_, _, execTrainTournament_of_strategy pc o hs, hframe, rfl, rfl, tournamentTrained_ghr _ _ _ _ st pc o,
    tableRead_gpht_tournamentTrained _ _ _ _ st pc o, tableRead_lpht_tournamentTrained _ _ _ _ st pc o,
    tableRead_lht_tournamentTrained _ _ _ _ st pc o, tableRead_chooserTrained _ _ _ _ st pc o⟩

/-- Settles O41: only the field `cht` of the trained elements reads the chooser table; the others are the outcome
bumped into the counter, and shifted into the history, that the state before points at. -/
theorem bothPredictorsAreAlwaysTrained : Obligations.BothPredictorsAreAlwaysTrained := by
  unfold Obligations.BothPredictorsAreAlwaysTrained
  intro s st cht' pc o hs hg hl
  have hother :=
    execTrainTournament_of_strategy (s := { s with strategy := .tournament { st with cht := cht' } }) pc o rfl
  refine ⟨_, _, _, _, execTrainTournament_of_strategy pc o hs, hother, rfl, rfl, rfl, rfl, rfl, rfl,
    shiftIn_mod_two st.ghr o hg, ?_, ?_, ?_⟩
  · rw [← localIndex_eq_mod, tournamentTrained, tableRead_write, if_pos rfl]
    exact shiftIn_mod_two _ o hl
  · rw [tournamentTrained, tableRead_bump_at, if_pos rfl]
  · rw [tournamentTrained, tableRead_bump_at, if_pos rfl]

/-- Settles O42: the run is a fold of TRAIN over the events, and along it no TRAIN moves the chooser table. -/
theorem chooserStability : Obligations.ChooserStability := by
  unfold Obligations.ChooserStability
  intro es s st hs hi hagree
  obtain ⟨t, hrun, hstrategy⟩ := run_branchInputs_tournament hs hi
  exact ⟨t, _, hrun, hstrategy, cht_tournamentTrainedBy es st hagree⟩

/-- Settles O39: PREDICT answers the prediction the chooser picks, each part read at its index as a remainder. -/
theorem predictTournamentFollowsTheChooser : Obligations.PredictTournamentFollowsTheChooser := by
  unfold Obligations.PredictTournamentFollowsTheChooser
  rintro s st pc _ _ hs rfl rfl
  rw [← globalPrediction_eq, ← localPrediction_eq, ← chooserCounter_eq]
  exact execPredictTournament_of_strategy pc hs

end Sys2Proof.Proofs
end

section
/-! PROOFS. The perceptron's arithmetic: the address hash, the weight that moves by one inside its signed range, and the
multiply-accumulate sum with the rows that reach its two bounds (43_perceptron R170 to R174, R179). -/

open Sys2Proof Sys2Proof.Machine

namespace Sys2Proof.Machine

/-! ### The address hash -/

section Hash

variable {b : BuildParams} (pc : Addr)

theorem percHash_of_exact (h : b.hashWrap = Option.none) : percHash b pc = pc.toNat * b.percKMult % b.percS := by
  simp only [percHash, h]

theorem percHash_of_wrap {n : Nat} (h : b.hashWrap = some n) :
    percHash b pc = pc.toNat * b.percKMult % 2 ^ n % b.percS := by
  simp only [percHash, h]

/-- Truncating the product changes no slot where nothing is cut off, or where the slots divide what is (R170). -/
theorem mod_two_pow_mod {v n m : Nat} (h : v < 2 ^ n ∨ m ∣ 2 ^ n) : v % 2 ^ n % m = v % m := by
  obtain hlt | hdvd := h
  · rw [Nat.mod_eq_of_lt hlt]
  · exact Nat.mod_mod_of_dvd v hdvd

end Hash

/-! ### One weight -/

/-- The history bit as a number. -/
theorem testBit_eq_true_iff (ph i : Nat) : ph.testBit i = true ↔ ph / 2 ^ i % 2 = 1 := by
  rw [Nat.testBit_eq_decide_div_mod_eq, decide_eq_true_eq]

/-- TRAIN compares a history bit with the outcome; as numbers, it compares their bits. -/
theorem testBit_eq_beq_taken_iff (ph i : Nat) (o : Direction) :
    ph.testBit i = (o == .taken) ↔ bit o = ph / 2 ^ i % 2 := by
  cases o with
  | taken => exact (testBit_eq_true_iff ph i).trans eq_comm
  | notTaken =>
    change ph.testBit i = false ↔ 0 = ph / 2 ^ i % 2
    rw [← Bool.not_eq_true, testBit_eq_true_iff]
    omega

/-- The input that weight `i` of a row goes with: 1 for the bias, then the bits of the history (R172). -/
def rowInput (ph i : Nat) : Nat := if i = 0 then 1 else ph / 2 ^ (i - 1) % 2

@[simp] theorem rowInput_zero (ph : Nat) : rowInput ph 0 = 1 := rfl

@[simp] theorem rowInput_succ (ph i : Nat) : rowInput ph (i + 1) = ph / 2 ^ i % 2 := if_neg (Nat.succ_ne_zero i)

/-- A weight after TRAIN, up where its input equals the outcome and down elsewhere (R174). -/
def movedWeight (k : Nat) (o : Direction) (input : Nat) (w : Int) : Int :=
  if bit o = input then wsatInc k w else wsatDec k w

theorem wsatInc_sub_self {k : Nat} {w : Int} (h : w ≤ weightMax k) :
    wsatInc k w - w = if w < weightMax k then 1 else 0 := by
  unfold wsatInc
  split <;> omega

theorem wsatDec_sub_self {k : Nat} {w : Int} (h : weightMin k ≤ w) :
    wsatDec k w - w = if weightMin k < w then -1 else 0 := by
  unfold wsatDec
  split <;> omega

/-- A weight in range moves by one toward the correlation it showed, and at the bound it stays (R177). -/
theorem movedWeight_sub_self {k : Nat} {w : Int} (o : Direction) (input : Nat)
    (h : weightMin k ≤ w ∧ w ≤ weightMax k) :
    movedWeight k o input w - w =
      if bit o = input then (if w < weightMax k then 1 else 0) else (if weightMin k < w then -1 else 0) := by
  unfold movedWeight
  split
  · exact wsatInc_sub_self h.2
  · exact wsatDec_sub_self h.1

/-! ### A row, weight by weight -/

theorem getElem?_nudgeWeights (k : Nat) (o : Direction) (ph j i : Nat) (ws : List Int) :
    (nudgeWeights k o ph j ws)[i]? = ws[i]?.map (movedWeight k o (ph / 2 ^ (j + i) % 2)) := by
  induction ws generalizing i j with
  | nil => rfl
  | cons w ws ih =>
    rw [nudgeWeights]
    cases i with
    | zero => simp only [List.getElem?_cons_zero, Option.map_some, testBit_eq_beq_taken_iff, movedWeight, add_zero]
    | succ i => rw [List.getElem?_cons_succ, List.getElem?_cons_succ, ih, add_right_comm, add_assoc]

/-- Training a row moves every weight by its own input (R174). -/
theorem getElem?_nudgeRow (k : Nat) (o : Direction) (ph i : Nat) (row : List Int) :
    (nudgeRow k o ph row)[i]? = row[i]?.map (movedWeight k o (rowInput ph i)) := by
  cases row with
  | nil => rfl
  | cons bias ws =>
    cases i with
    | zero => cases o <;> rfl
    | succ i =>
      have hweights := getElem?_nudgeWeights k o ph 0 i ws
      rwa [zero_add, ← rowInput_succ] at hweights

theorem getD_nudgeRow (k : Nat) (o : Direction) (ph : Nat) {i : Nat} {row : List Int} (hi : i < row.length) :
    (nudgeRow k o ph row).getD i 0 = movedWeight k o (rowInput ph i) (row.getD i 0) := by
  rw [List.getD_eq_getElem?_getD, getElem?_nudgeRow, List.getD_eq_getElem?_getD, List.getElem?_eq_getElem hi]
  rfl

/-- Each weight of a row in range moves by at most one (R177). -/
theorem getD_nudgeRow_sub {b : BuildParams} {row : List Int} (o : Direction) (ph : Nat) {i : Nat} (h : RowOk b row)
    (hi : i ≤ b.percH) :
    (nudgeRow b.percK o ph row).getD i 0 - row.getD i 0 =
      if bit o = rowInput ph i then (if row.getD i 0 < weightMax b.percK then 1 else 0)
      else (if weightMin b.percK < row.getD i 0 then -1 else 0) := by
  obtain ⟨hlen, hrange⟩ := h
  have hi : i < row.length := by omega
  rw [getD_nudgeRow _ _ _ hi]
  apply movedWeight_sub_self
  rw [List.getD_eq_getElem _ _ hi]
  exact hrange _ (List.getElem_mem hi)

/-! ### The multiply-accumulate sum -/

theorem macSum_eq_sum (ph j : Nat) (ws : List Int) :
    macSum ph j ws = ∑ i ∈ Finset.range ws.length, if ph.testBit (j + i) then ws.getD i 0 else -ws.getD i 0 := by
  induction ws generalizing j with
  | nil => rfl
  | cons w ws ih =>
    rw [macSum, ih, List.length_cons, Finset.sum_range_succ', add_comm]
    simp [add_right_comm, add_assoc]

/-- R172 with the row's own numbering of its weights: the bias is weight 0. -/
theorem percOut_cons_eq_sum (bias : Int) (ws : List Int) (ph : Nat) :
    percOut (bias :: ws) ph = bias + ∑ i ∈ Finset.Icc 1 ws.length,
      if ph / 2 ^ (i - 1) % 2 = 1 then (bias :: ws).getD i 0 else -(bias :: ws).getD i 0 := by
  rw [percOut, macSum_eq_sum, ← Finset.Ico_add_one_right_eq_Icc, Finset.sum_Ico_eq_sum_range]
  simp [testBit_eq_true_iff, add_comm 1]

/-! ### The bounds of the sum are reached -/

/-- Where every weight adds the same amount, the sum is that many of it. -/
theorem macSum_of_forall_eq {ph j : Nat} {ws : List Int} {v : Int}
    (h : ∀ i, i < ws.length → (if ph.testBit (j + i) then ws.getD i 0 else -ws.getD i 0) = v) :
    macSum ph j ws = ws.length * v := by
  rw [macSum_eq_sum, Finset.sum_congr rfl (fun i hi => h i (Finset.mem_range.1 hi)), Finset.sum_const,
    Finset.card_range, nsmul_eq_mul]

/-- The row with every history weight at its lower bound. -/
def lowestWeights (b : BuildParams) (bias : Int) : List Int := bias :: List.replicate b.percH (weightMin b.percK)

theorem lowestWeights_ok {b : BuildParams} {bias : Int} (h : weightMin b.percK ≤ bias ∧ bias ≤ weightMax b.percK) :
    RowOk b (lowestWeights b bias) := by
  refine ⟨by simp [lowestWeights], List.forall_mem_cons.2 ⟨h, fun w hw => ?_⟩⟩
  rw [List.eq_of_mem_replicate hw]
  exact ⟨le_rfl, (weightMin_le_zero _).trans (zero_le_weightMax _)⟩

/-- With every history bit 1 each weight is added. -/
theorem percOut_lowestWeights_mask (b : BuildParams) (bias : Int) :
    percOut (lowestWeights b bias) (mask b.percH) = bias + b.percH * weightMin b.percK := by
  have hsum : macSum (mask b.percH) 0 (List.replicate b.percH (weightMin b.percK)) = _ :=
    macSum_of_forall_eq (v := weightMin b.percK) fun i hi => by
      rw [List.length_replicate] at hi
      rw [List.getD_replicate _ hi, zero_add, mask, Nat.testBit_two_pow_sub_one, if_pos (decide_eq_true hi)]
  rw [lowestWeights, percOut, hsum, List.length_replicate]

/-- With every history bit 0 each weight is subtracted. -/
theorem percOut_lowestWeights_zero (b : BuildParams) (bias : Int) :
    percOut (lowestWeights b bias) 0 = bias + b.percH * -weightMin b.percK := by
  have hsum : macSum 0 0 (List.replicate b.percH (weightMin b.percK)) = _ :=
    macSum_of_forall_eq (v := -weightMin b.percK) fun i hi => by
      rw [List.length_replicate] at hi
      rw [List.getD_replicate _ hi, Nat.zero_testBit, if_neg Bool.false_ne_true]
  rw [lowestWeights, percOut, hsum, List.length_replicate]

/-- `ACCW = PERC_K + ceil(log2(PERC_H + 1))` bits are enough for `PERC_H + 1` weights (R179). -/
theorem accumulator_fits {k : Nat} (h : Nat) (hk : 1 ≤ k) :
    (h + 1 : Int) * 2 ^ (k - 1) ≤ 2 ^ (k + Nat.clog 2 (h + 1) - 1) := by
  have hlog : h + 1 ≤ 2 ^ Nat.clog 2 (h + 1) := Nat.le_pow_clog one_lt_two _
  have hexp : k + Nat.clog 2 (h + 1) - 1 = Nat.clog 2 (h + 1) + (k - 1) := by omega
  rw [hexp, pow_add]
  exact mul_le_mul_of_nonneg_right (mod_cast hlog) (by positivity)

end Sys2Proof.Machine

namespace Sys2Proof.Proofs

/-- Settles O43: the two settings of `HASH_WRAP`, and when truncation changes no slot. -/
theorem hashFormula : Obligations.HashFormula := by
  unfold Obligations.HashFormula
  intro b pc hS
  refine ⟨percHash_of_exact pc, fun n => percHash_of_wrap pc, percHash_lt b pc hS, fun h => ?_⟩
  rw [percHash_of_exact pc rfl, percHash_of_wrap pc rfl]
  exact (mod_two_pow_mod h).symm

/-- Settles O44: the two formulas are the definitions, and a weight in range stays there. -/
theorem weightSaturation : Obligations.WeightSaturation := by
  unfold Obligations.WeightSaturation
  exact fun k w hmin hmax => ⟨rfl, rfl, wsatInc_mem ⟨hmin, hmax⟩, wsatDec_mem ⟨hmin, hmax⟩⟩

/-- Settles O45: a row of `H + 1` weights is a bias and `H` history weights, which the MAC sums by recursion. -/
theorem macSumFormula : Obligations.MacSumFormula := by
  unfold Obligations.MacSumFormula
  intro row ph h hlen
  cases row with
  | nil => simp at hlen
  | cons bias ws =>
    obtain rfl : ws.length = h := by simpa using hlen
    exact percOut_cons_eq_sum bias ws ph

/-- Settles O46: every sum is within the bounds; history weights at their lower bound reach the lower one where all of
them are added, and the upper one where all of them are subtracted. -/
theorem accumulatorBounds : Obligations.AccumulatorBounds := by
  unfold Obligations.AccumulatorBounds
  rintro b ⟨-, hK, -⟩
  have hfits := accumulator_fits b.percH hK
  have hrange := (weightMin_le_zero b.percK).trans (zero_le_weightMax b.percK)
  refine ⟨fun row ph hrow => ?_, ⟨_, mask b.percH, lowestWeights_ok ⟨le_rfl, hrange⟩, ?_, ?_⟩,
    ⟨_, 0, lowestWeights_ok ⟨hrange, le_rfl⟩, Nat.two_pow_pos _, ?_⟩⟩
  · obtain ⟨hlo, hhi⟩ := percOut_bounds ph hrow
    exact ⟨hlo, hhi, by omega, by omega⟩
  · exact Nat.sub_lt (Nat.two_pow_pos _) one_pos
  · rw [percOut_lowestWeights_mask, weightMin]
    ring
  · rw [percOut_lowestWeights_zero, weightMin, weightMax]
    ring

end Sys2Proof.Proofs
end

section
/-! PROOFS. Mode CUSTOM: what PREDICT records and what TRAIN leaves in the weights and the history
(43_perceptron R173 to R178). -/

open Sys2Proof Sys2Proof.Machine

namespace Sys2Proof.Machine

/-! ### The elements of mode CUSTOM -/

theorem needsTrain_eq_decide_abs (b : BuildParams) (out : Int) :
    needsTrain b out = decide (|out| < (b.percTheta : Int)) := by
  rw [needsTrain, Int.abs_eq_natAbs, decide_eq_decide, Nat.cast_lt]

theorem mustTrain_iff (pred : Direction) (need : Bool) (o : Direction) :
    mustTrain pred need o = true ↔ pred ≠ o ∨ need = true := by
  simp [mustTrain]

section Elements

variable (b : BuildParams) (pred : Direction) (need : Bool) (st : CustomState) (pc : Addr) (o : Direction)

theorem customTrained_phist : (customTrained b pred need st pc o).phist = (2 * st.phist + bit o) % 2 ^ b.percH :=
  shiftIn_eq_mod _ _ _

/-- TRAIN writes the row of its address and no other (R174, R177). -/
theorem tableRead_customTrained_of_ne {i : Nat} (hi : i ≠ percHash b pc) :
    tableRead (zeroRow b.percH) (customTrained b pred need st pc o).pw i = tableRead (zeroRow b.percH) st.pw i := by
  unfold customTrained
  dsimp only
  split
  · rw [tableRead_write, if_neg hi]
  · rfl

variable {pred need o}

/-- TRAIN trains the row of its address where the prediction was wrong or needs-train was set (R174). -/
theorem tableRead_customTrained_of_mustTrain (h : mustTrain pred need o = true) :
    tableRead (zeroRow b.percH) (customTrained b pred need st pc o).pw (percHash b pc) =
      nudgeRow b.percK o st.phist (percRow b st pc) := by
  rw [customTrained, if_pos h, tableRead_write, if_pos rfl]

/-- A confident and correct prediction trains nothing; the history shifts (R176). -/
theorem customTrained_of_not_mustTrain (h : mustTrain pred need o = false) :
    customTrained b pred need st pc o = { st with phist := (2 * st.phist + bit o) % 2 ^ b.percH } := by
  rw [customTrained, h, shiftIn_eq_mod]
  rfl

end Elements

/-! ### Two addresses with one slot -/

section SameSlot

variable {b : BuildParams} {pc pc' : Addr}

theorem percRow_of_same_slot (h : percHash b pc = percHash b pc') (st : CustomState) :
    percRow b st pc = percRow b st pc' := by
  rw [percRow, h, percRow]

theorem customScratch_of_same_slot (h : percHash b pc = percHash b pc') (st : CustomState) :
    customScratch b st pc = customScratch b st pc' := by
  rw [customScratch, percRow_of_same_slot h, customScratch]

theorem customPredicted_of_same_slot (h : percHash b pc = percHash b pc') (st : CustomState) :
    customPredicted b st pc = customPredicted b st pc' := by
  rw [customPredicted, customScratch_of_same_slot h, customPredicted]

theorem customTrained_of_same_slot (h : percHash b pc = percHash b pc') (pred : Direction) (need : Bool)
    (st : CustomState) (o : Direction) : customTrained b pred need st pc o = customTrained b pred need st pc' o := by
  rw [customTrained, percRow_of_same_slot h, h, customTrained]

end SameSlot

section Meanings

variable {s : State} {pc pc' : Addr}

theorem execPredictCustom_of_same_slot (h : percHash s.build pc = percHash s.build pc') :
    execPredictCustom pc s = execPredictCustom pc' s := by
  unfold execPredictCustom
  split
  · rw [customScratch_of_same_slot h, customPredicted_of_same_slot h]
  · rfl

theorem execTrainCustom_of_same_slot (h : percHash s.build pc = percHash s.build pc') (o : Direction) :
    execTrainCustom pc o s = execTrainCustom pc' o s := by
  unfold execTrainCustom
  split
  · rw [customTrained_of_same_slot h]
  · rfl

/-! ### TRAIN by what the scratch state holds -/

variable {st : CustomState}

/-- After a PREDICT, TRAIN reads what it recorded and makes no draw. -/
theorem execTrainCustom_of_written {sc : Scratch} (hs : s.strategy = .custom st) (hsc : st.scratch = some sc)
    (pc : Addr) (o : Direction) :
    execTrainCustom pc o s = .next (answerWith 0#1 (.custom (customTrained s.build sc.pred sc.need st pc o)) s) := by
  rw [execTrainCustom_of_strategy pc o hs, hsc]
  rfl

/-- With no PREDICT since INIT, TRAIN reads two free bits and counts one draw (93 U3). -/
theorem execTrainCustom_of_unwritten (hs : s.strategy = .custom st) (hsc : st.scratch = Option.none) (pc : Addr)
    (o : Direction) :
    execTrainCustom pc o s =
      .next (answerWith 0#1
        (.custom (customTrained s.build (Config.freeScratchPred s.draws) (Config.freeScratchNeed s.draws) st pc o))
        { s with draws := s.draws + 1 }) := by
  rw [execTrainCustom_of_strategy pc o hs, hsc]
  rfl

theorem answerWith_onlyElementsChange (d : BitVec 1) (strategy : Strategy) (draws : Nat) :
    OnlyElementsChange s (answerWith d strategy { s with draws := draws }) ⟨.ok, d⟩ :=
  ⟨rfl, rfl, rfl, rfl, rfl, rfl, rfl, rfl⟩

end Meanings

end Sys2Proof.Machine

namespace Sys2Proof.Proofs

/-- Settles O47: PREDICT answers with its record in place, whose flag is the absolute value compared. -/
theorem predictCustomRecordsTheSum : Obligations.PredictCustomRecordsTheSum := by
  unfold Obligations.PredictCustomRecordsTheSum
  rintro s st pc _ _ hs rfl rfl
  rw [← needsTrain_eq_decide_abs]
  exact execPredictCustom_of_strategy pc hs

/-- Settles O49: TRAIN reads the recorded bits, trains the row of its address or none, and shifts the history. -/
theorem trainCustomAdjustsTheRow : Obligations.TrainCustomAdjustsTheRow := by
  unfold Obligations.TrainCustomAdjustsTheRow
  rintro s st sc pc o _ hs hsc rfl
  refine ⟨_, _, execTrainCustom_of_written hs hsc pc o, answerWith_onlyElementsChange _ _ s.draws, rfl, rfl, hsc,
    customTrained_phist _ _ _ st pc o, fun i => tableRead_customTrained_of_ne _ _ _ st pc o, fun h => ?_, fun h i => ?_⟩
  · rw [← mustTrain_iff, Bool.not_eq_true] at h
    rw [customTrained_of_not_mustTrain _ _ _ h]
  · rw [tableRead_customTrained_of_mustTrain _ _ _ ((mustTrain_iff _ _ _).2 h)]
    exact getElem?_nudgeRow _ o st.phist i _

/-- Settles O50: whatever the two free bits are, they train the row of the address or leave all weights. -/
theorem trainCustomWithUnwrittenScratch : Obligations.TrainCustomWithUnwrittenScratch := by
  unfold Obligations.TrainCustomWithUnwrittenScratch
  rintro s st pc o _ hs hsc rfl
  refine ⟨_, _, execTrainCustom_of_unwritten hs hsc pc o, answerWith_onlyElementsChange _ _ _, rfl, rfl, hsc,
    customTrained_phist _ _ _ st pc o, fun i => tableRead_customTrained_of_ne _ _ _ st pc o, ?_⟩
  cases hmust : mustTrain (Config.freeScratchPred s.draws) (Config.freeScratchNeed s.draws) o with
  | false =>
    left
    rw [customTrained_of_not_mustTrain _ _ _ hmust]
  | true =>
    right
    intro i
    rw [tableRead_customTrained_of_mustTrain _ _ _ hmust]
    exact getElem?_nudgeRow _ o st.phist i _

/-- Settles O51: with the outcome as predicted and needs-train 0 there is nothing to train. -/
theorem confidentCorrectTrainsNothing : Obligations.ConfidentCorrectTrainsNothing := by
  unfold Obligations.ConfidentCorrectTrainsNothing
  intro s st sc pc hs hsc hneed
  have hmust : mustTrain sc.pred sc.need sc.pred = false := by simp [mustTrain, hneed]
  have hexec := execTrainCustom_of_written hs hsc pc sc.pred
  rw [customTrained_of_not_mustTrain _ _ _ hmust] at hexec
  exact hexec

/-- Settles O52: the trained row differs from the row before it weight by weight, the bias by its input 1. -/
theorem weightReinforcement : Obligations.WeightReinforcement := by
  unfold Obligations.WeightReinforcement
  intro s st sc pc o row hs hsc hmust hread hrow
  obtain rfl : row = percRow s.build st pc := hread
  have htrained :=
    (tableRead_customTrained_of_mustTrain s.build st pc ((mustTrain_iff sc.pred sc.need o).2 hmust)).symm
  refine ⟨_, _, _, execTrainCustom_of_written hs hsc pc o, rfl, htrained, (nudgeRow_ok o st.phist hrow).1, ?_,
    fun i hi hiH => ?_, fun i => tableRead_customTrained_of_ne _ _ _ st pc o⟩
  · rw [getD_nudgeRow_sub o st.phist hrow (Nat.zero_le _)]
    cases o <;> rfl
  · rw [getD_nudgeRow_sub o st.phist hrow hiH, rowInput, if_neg (Nat.one_le_iff_ne_zero.1 hi)]

/-- Settles O53: the meanings see an address through its slot only, and the history that TRAIN shifts not even so. -/
theorem slotSharing : Obligations.SlotSharing := by
  unfold Obligations.SlotSharing
  refine fun s pc pc' o => ⟨fun h => ⟨execPredictCustom_of_same_slot h, execTrainCustom_of_same_slot h o⟩, ?_⟩
  intro t t' st st' ht ht' hst hst'
  obtain ⟨u, hu, rfl⟩ := execTrainCustom_spec ht
  obtain ⟨u', hu', rfl⟩ := execTrainCustom_spec ht'
  cases hu.symm.trans hu'
  cases hst
  cases hst'
  rfl

end Sys2Proof.Proofs
end

section
/-! PROOFS. INIT and the two modes without state (44_dispatch_static_init): when a configuration is valid, what INIT
builds or faults to, and what NONE and STATIC answer (R191 to R198). -/

open Sys2Proof Sys2Proof.Machine

namespace Sys2Proof.Machine

/-! ### INIT by the validity of its configuration -/

section Init

variable {s : State} {v : BitVec 8} {g l p : BitVec 6}

/-- The converse of the first case of `execInit_spec`. -/
theorem execInit_of_valid (hv : configValid s.build v g l p = true) :
    execInit v g l p s = .next (enterStrategy (freshStrategy v) (latchWidths g l p s)) :=
  if_pos hv

/-- The converse of the second case of `execInit_spec`. -/
theorem execInit_of_invalid (hv : configValid s.build v g l p = false) :
    execInit v g l p s = .next (takeConfigFault (latchWidths g l p s)) :=
  if_neg (ne_true_of_eq_false hv)

end Init

end Sys2Proof.Machine

namespace Sys2Proof.Proofs

/-- Settles O31: a valid INIT enters the fresh strategy of its variant, whose tables are empty and so read as their
initial values; the zero weights and perceptron history are the spec's decision D14. -/
theorem initBuildsTheRequestedMode : Obligations.InitBuildsTheRequestedMode := by
  unfold Obligations.InitBuildsTheRequestedMode
  intro s v g l p hv
  refine ⟨_, execInit_of_valid hv, rfl, rfl, rfl, rfl, rfl, rfl, rfl, rfl, rfl, ?static, ?gshare, ?tournament, ?custom⟩
  case static =>
    rintro rfl
    rfl
  case gshare =>
    rintro rfl
    exact ⟨_, rfl, rfl, tableRead_nil _⟩
  case tournament =>
    rintro rfl
    exact ⟨_, rfl, rfl, tableRead_nil _, tableRead_nil _, tableRead_nil _, tableRead_nil _⟩
  case custom =>
    rintro rfl
    exact ⟨_, rfl, rfl, rfl, tableRead_nil _⟩

/-- Settles O29: the four disjuncts of `configValid` are the four cases, with each variant read as its number. -/
theorem configValidity : Obligations.ConfigValidity := by
  unfold Obligations.ConfigValidity
  intro b v g l p
  simp only [configValid, Bool.or_eq_true, Bool.and_eq_true, beq_iff_eq, BitVec.toNat_eq, BitVec.toNat_ofNat,
    widthOk_iff, or_assoc, and_assoc]

/-- Settles O32: an invalid INIT latches the widths and takes the configuration fault. -/
theorem initTakesTheConfigFault : Obligations.InitTakesTheConfigFault := by
  unfold Obligations.InitTakesTheConfigFault
  intro s v g l p hv
  exact execInit_of_invalid hv

/-- Settles O33: validity reads only the build parameters, and in both cases every field named is a value of the
operands alone. -/
theorem initForgetsTheOldState : Obligations.InitForgetsTheOldState := by
  unfold Obligations.InitForgetsTheOldState
  intro s s' v g l p hbuild
  cases hv : configValid s.build v g l p with
  | true =>
    exact ⟨_, _, execInit_of_valid hv, execInit_of_valid (hbuild ▸ hv), rfl, rfl, rfl, rfl, rfl, rfl⟩
  | false =>
    exact ⟨_, _, execInit_of_invalid hv, execInit_of_invalid (hbuild ▸ hv), rfl, rfl, rfl, rfl, rfl, rfl⟩

/-- Settles O34: in mode NONE both rows answer, and the bit of NotTaken is 0. -/
theorem noneModeCommands : Obligations.NoneModeCommands := by
  unfold Obligations.NoneModeCommands
  intro s pc o hs
  exact ⟨execPredictNone_of_strategy pc hs, execTrainNone_of_strategy pc o hs⟩

/-- Settles O35: in mode STATIC both rows answer, and the bit of Taken is 1. -/
theorem staticModeCommands : Obligations.StaticModeCommands := by
  unfold Obligations.StaticModeCommands
  intro s pc o hs
  exact ⟨execPredictStatic_of_strategy pc hs, execTrainStatic_of_strategy pc o hs⟩

end Sys2Proof.Proofs
end

section
/-! PROOFS. The three conditions the unit can meet (60_exceptions): the cause of a configuration fault, an illegal word,
and the read of scratch state that holds no value, which the caller contract excludes (R211 to R216, R233). -/

open Sys2Proof Sys2Proof.Machine

namespace Sys2Proof.Machine

/-! ### The cause of a configuration fault -/

section Cause

/-- The first cause that holds, of a list that gives each cause with whether its condition holds (R216). -/
def firstCause (causes : List (FaultCause × Bool)) : Option FaultCause :=
  (causes.find? (fun e => e.2)).map (fun e => e.1)

@[simp] theorem firstCause_nil : firstCause [] = Option.none := rfl

theorem firstCause_cons (cause : FaultCause) (P : Prop) [Decidable P] (causes : List (FaultCause × Bool)) :
    firstCause ((cause, decide P) :: causes) = if P then some cause else firstCause causes := by
  by_cases h : P <;> simp [firstCause, h]

variable (b : BuildParams) (v : BitVec 8) (g l p : BitVec 6)

/-- R216's seven conditions in its order, with the operands read as numbers. -/
def causesInOrder : List (FaultCause × Bool) :=
  [(.unknownVariant, decide (4 ≤ v.toNat)),
    (.zeroWidthG, decide ((v.toNat = 1 ∨ v.toNat = 2) ∧ g.toNat = 0)),
    (.zeroWidthL, decide (v.toNat = 2 ∧ l.toNat = 0)),
    (.zeroWidthP, decide (v.toNat = 2 ∧ p.toNat = 0)),
    (.widthTooLargeG, decide ((v.toNat = 1 ∨ v.toNat = 2) ∧ b.maxW < g.toNat)),
    (.widthTooLargeL, decide (v.toNat = 2 ∧ b.maxW < l.toNat)),
    (.widthTooLargeP, decide (v.toNat = 2 ∧ b.maxW < p.toNat))]

theorem faultCause_eq_firstCause : faultCause b v g l p = firstCause (causesInOrder b v g l p) := by
  simp only [faultCause, causesInOrder, firstCause_cons, firstCause_nil, BitVec.toNat_eq, BitVec.toNat_ofNat]

/-- A configuration has no cause of a fault when none of the seven conditions holds. -/
theorem faultCause_eq_none_iff :
    faultCause b v g l p = Option.none ↔ ∀ e ∈ causesInOrder b v g l p, e.2 = false := by
  simp [faultCause_eq_firstCause, firstCause]

/-- The seven conditions together are the failure of `config_valid` (R196, R211): a variant is
unknown, or one of the widths it reads is outside `1 .. MAXW`. -/
theorem faultCause_eq_none_iff_configValid :
    faultCause b v g l p = Option.none ↔ configValid b v g l p = true := by
  rw [faultCause_eq_none_iff, Proofs.configValidity]
  simp only [causesInOrder, List.forall_mem_cons, List.not_mem_nil, decide_eq_false_iff_not, false_implies, implies_true,
    and_true]
  omega

end Cause

/-! ### An illegal word -/

theorem obeysContract_cons_illegal {w : CmdWord} (hc : decodeCommand w = Option.none) (ph : Phase) (rest : List Input) :
    obeysContract ph (.command w :: rest) = obeysContract ph rest := by
  cases ph <;> simp [obeysContract, hc]

/-! ### No free draw under the contract -/

/-- A run under the contract leaves the count of free draws as it was: each step does, and keeps the contract
invariant. -/
theorem run_draws {n : Nat} {ph : Phase} {s t : State} (h : ContractInv ph s)
    (hrun : Sys2Proof.core.run n s = .next t) : t.draws = s.draws := by
  induction n generalizing ph s with
  | zero => cases hrun; rfl
  | succ n ih =>
    obtain ⟨u, hstep⟩ := Proofs.everyStepCompletes s
    obtain ⟨ph', hu⟩ := exists_contractInv_of_step h hstep
    have hdraws : u.draws = s.draws := (Proofs.everyStepKeepsTheContractInvariant ph s u h hstep).1
    exact (ih hu ((run_of_step hstep n).symm.trans hrun)).trans hdraws

end Sys2Proof.Machine

namespace Sys2Proof.Proofs

/-- Settles O57: the contract invariant holds with no TRAIN owed, and no step under it draws. -/
theorem contractRunsNeverDraw : Obligations.ContractRunsNeverDraw := by
  unfold Obligations.ContractRunsNeverDraw
  intro n ph s t hph hin hrun
  exact run_draws (contractInv_of_no_train_owed hph hin) hrun

/-- Settles O30: the model's chain of conditions is R216's list, and no condition of it holds exactly when the
configuration is valid. -/
theorem faultCauseIsTheFirstThatHolds : Obligations.FaultCauseIsTheFirstThatHolds := by
  unfold Obligations.FaultCauseIsTheFirstThatHolds
  intro b v g l p
  refine ⟨?_, faultCause_eq_firstCause b v g l p⟩
  rw [Option.isSome_iff_ne_none, ne_eq, faultCause_eq_none_iff_configValid, Bool.not_eq_true]

/-- Settles O7: the step is IllegalCommand, and the contract passes over the word. -/
theorem illegalWordHasNoEffect : Obligations.IllegalWordHasNoEffect := by
  unfold Obligations.IllegalWordHasNoEffect
  intro s w rest hc
  exact ⟨fun hi => step_illegal hi hc, fun ph => obeysContract_cons_illegal hc ph rest⟩

end Sys2Proof.Proofs
end

section
/-! PROOFS. Power-on reset and what no run changes: the power-on values and the build parameters (70_reset R230, R232). -/

open Sys2Proof Sys2Proof.Machine

namespace Sys2Proof.Machine

/-! ### The power-on state -/

theorem atPowerOn_reset : AtPowerOn State.reset := ⟨rfl, rfl, rfl, rfl, rfl⟩

/-- Before the first INIT no TRAIN is owed, so the contract invariant asks only for the contract and the power-on
values. -/
theorem contractInv_beforeInit {s : State} (hin : obeysContract .beforeInit s.inputs = true) (hon : AtPowerOn s) :
    ContractInv .beforeInit s :=
  ⟨hin, fun _ => hon, fun _ => Phase.noConfusion⟩

/-! ### Runs -/

/-- What every step keeps, every run keeps. -/
theorem run_keeps {P : State → Prop} (hstep : ∀ s t, P s → step s = .next t → P t) {n : Nat} {s t : State} (hs : P s)
    (hrun : Sys2Proof.core.run n s = .next t) : P t := by
  induction n generalizing s with
  | zero => cases hrun; exact hs
  | succ n ih =>
    obtain ⟨u, hu⟩ := Proofs.everyStepCompletes s
    exact ih (hstep s u hs hu) ((run_of_step hu n).symm.trans hrun)

/-- No step writes a build parameter (R232). -/
theorem step_build {s t : State} (h : step s = .next t) : t.build = s.build := by
  cases stepEffect_of_step h with
  | wait => rfl
  | rst => exact powerOn_build _
  | illegal => exact takeIllegalCommand_build _
  | initOk => rw [enterStrategy_build, latchWidths_build]
  | initFault => rw [takeConfigFault_build, latchWidths_build]
  | predict => exact afterPredict_build _ _ _
  | train => exact afterTrain_build _ _ _

end Sys2Proof.Machine

namespace Sys2Proof.Proofs

/-- Settles O15: no step writes a build parameter, so every run ends with those of its first state. -/
theorem buildParametersNeverChange : Obligations.BuildParametersNeverChange := by
  unfold Obligations.BuildParametersNeverChange
  intro n s t hrun
  exact run_keeps (P := fun u => u.build = s.build) (fun _ _ hu hstep => (step_build hstep).trans hu) rfl hrun

/-- Settles O8: reset has the power-on values, and `rst` runs `powerOn` on whatever state it meets. -/
theorem powerOnState : Obligations.PowerOnState := by
  unfold Obligations.PowerOnState
  obtain ⟨hstrategy, hfault, hg, hl, hp⟩ := atPowerOn_reset
  exact ⟨⟨rfl, hstrategy, hfault, hg, hl, hp⟩, fun _ _ hi => step_rst hi⟩

/-- Settles O59: the inputs obey the contract by hypothesis, and they are no part of the power-on values. -/
theorem contractInvariantAtReset : Obligations.ContractInvariantAtReset := by
  unfold Obligations.ContractInvariantAtReset
  intro is hin
  exact contractInv_beforeInit hin atPowerOn_reset

end Sys2Proof.Proofs
end
